-- ==== Sys2Proof/Word.lean ====
section
/-! DEFINITION. The word types of the block: bytes, 16-bit words, addresses, register indices (spec/00_scope.md R8, R9). -/

namespace Sys2Proof

/-- An 8-bit value `u8`: a general register, a memory byte, an immediate `kk` (spec/00_scope.md R9). -/
abbrev Byte := BitVec 8

/-- A 16-bit value `u16`: `I`, `PC`, a stack slot, a fetched instruction (spec/00_scope.md R7, R8). -/
abbrev Word := BitVec 16

/-- A 12-bit address field `nnn` (spec/30_encoding.md R71). -/
abbrev Addr := BitVec 12

/-- A 4-bit immediate `n` (spec/30_encoding.md R71). -/
abbrev Nibble := BitVec 4

/-- The index of a general register, a 4-bit field `x` or `y` (spec/10_state.md R20). -/
abbrev Reg := Fin 16

/-- The index of `VF`, the flag register (spec/10_state.md R21). -/
abbrev flagReg : Reg := 15

end Sys2Proof
end

