-- ==== Sys2Proof/Config.lean ====
section
/-! DEFINITION. What the spec leaves to the implementation or to the environment: opaque constants, of which no
proof can know a value. The parameters that have a value stand in Machine/Params.lean. -/

namespace Sys2Proof.Config

/-- One answer of the keyboard source: key `k` is pressed iff entry `k` is true (spec/60_exceptions.md R222). -/
abbrev KeySnapshot := Vector Bool 16

/-- The launch parameter `MEM_INIT`: the byte an address outside the font and the program holds after construction
(spec/10_state.md R36, decision D23; log entry 1). -/
opaque memInit : Nat → Byte

/-- The byte of the `n`-th free draw from the random source (spec/60_exceptions.md R223, decision D20; log entry 4). -/
opaque freeByte : Nat → Byte

/-- The keyboard snapshot of the `n`-th free draw (spec/60_exceptions.md R222; log entry 4). -/
opaque freeKeys : Nat → KeySnapshot

/-- The agents that step by themselves while the machine runs (spec/60_exceptions.md R220). -/
inductive Agent where
  | cpu
  | delay
  | sound
deriving DecidableEq, Repr

/-- The agents that step, in order, in the `n`-th free round of the schedule, before the ones it leaves out
(spec/60_exceptions.md R220, decision D21; log entry 3). -/
opaque freeRound : Nat → List Agent

/-- One less than `CPU_TICK_PERIOD` in clock units (spec/00_scope.md R7: OPEN; log entry 8). -/
opaque cpuTickPeriodPred : Nat

end Sys2Proof.Config
end

