-- ==== Sys2Proof/Machine/Params.lean ====
section
/-! DEFINITION. The block's implementation parameters that have a value (spec/00_scope.md R7), and the built-in font. -/

namespace Sys2Proof.Params

/-- `MEM_SIZE`: valid addresses are `0 .. memSize-1` (R7). -/
def memSize : Nat := 4096

/-- `LOAD_ADDR`, the program load address and the reset `PC` (R7, decision D2). -/
def loadAddr : Nat := 0x200

/-- `FONT_BASE`, the address of glyph 0 (R7, decision D3). -/
def fontBase : Nat := 0x000

/-- `FONT_GLYPH_BYTES`, the bytes of one glyph (R7). -/
def glyphBytes : Nat := 5

/-- Glyphs `0` to `7` (spec/20_memory.md R57). -/
def fontLow : List Byte :=
  [0xF0, 0x90, 0x90, 0x90, 0xF0,  0x20, 0x60, 0x20, 0x20, 0x70,
   0xF0, 0x10, 0xF0, 0x80, 0xF0,  0xF0, 0x10, 0xF0, 0x10, 0xF0,
   0x90, 0x90, 0xF0, 0x10, 0x10,  0xF0, 0x80, 0xF0, 0x10, 0xF0,
   0xF0, 0x80, 0xF0, 0x90, 0xF0,  0xF0, 0x10, 0x20, 0x40, 0x40]

/-- Glyphs `8` to `F` (spec/20_memory.md R57). -/
def fontHigh : List Byte :=
  [0xF0, 0x90, 0xF0, 0x90, 0xF0,  0xF0, 0x90, 0xF0, 0x10, 0xF0,
   0xF0, 0x90, 0xF0, 0x90, 0x90,  0xE0, 0x90, 0xE0, 0x90, 0xE0,
   0xF0, 0x80, 0x80, 0x80, 0xF0,  0xE0, 0x90, 0x90, 0x90, 0xE0,
   0xF0, 0x80, 0xF0, 0x80, 0xF0,  0xF0, 0x80, 0xF0, 0x80, 0x80]

/-- `FONT_DATA`, 16 glyphs of 5 bytes, glyph `d` at offset `5 * d` (spec/20_memory.md R57). -/
def fontData : List Byte := fontLow ++ fontHigh

/-- `TIMER_PERIOD`, 1/60 s nominal, in clock units of 1/60 of a nanosecond (R7; log entry 7). -/
def timerPeriod : Nat := 1000000000

/-- `CPU_TICK_PERIOD` in clock units: positive, otherwise open (R7, decision P1; log entry 8). -/
def cpuTickPeriod : Nat := Config.cpuTickPeriodPred + 1

end Sys2Proof.Params
end

