-- ==== Sys2Proof/Machine/State.lean ====
section
/-! DEFINITION. The machine's state as plain data (spec/10_state.md R20 to R38), the reasons a step can stop, and the
state after reset (R36, spec/70_reset_and_hazards.md R240). -/

namespace Sys2Proof.Machine

/-! ## Reasons to stop -/

/-- The sub-kinds of `OutOfBounds` (spec/60_exceptions.md R200). -/
inductive BoundsKind where
  | fetch
  | read
  | write
  | stackOverflow
  | stackUnderflow
deriving DecidableEq, Repr

/-- The sub-kinds of `Unmodelled` (spec/60_exceptions.md R200). -/
inductive DomainKind where
  | fontDigit
  | keyIndex
  | spriteHeightZero
deriving DecidableEq, Repr

/-- The fault records `Fault(code, sub, pc, info)` of spec/60_exceptions.md R200, and the end of a stopped run. -/
inductive Fault where
  /-- Code 1. Raised by the engine's fetch, by `DRW` and `LD Vx,[I]` (read), `LD B,Vx` and `LD [I],Vx` (write), `CALL`
  (overflow) and `RET` (underflow), R201. The spec's own fault. SAFE: it stops where the spec stops. -/
  | outOfBounds (sub : BoundsKind) (pc : Word) (info : Word)
  /-- Code 2. Raised by the engine on a word that decodes to `Illegal`, with the raw word, R202. The spec's own fault.
  SAFE: it stops where the spec stops. -/
  | illegalInstruction (pc : Word) (ins : Word)
  /-- Code 3. Never raised by the block; the host injects it between two steps, R204, so it has no instruction and no
  `pc` (log entry 9). SAFE: it stops where the spec stops. -/
  | resourceFailure
  /-- Code 4. Raised by `LD F,Vx`, `SKP`, `SKNP` and `DRW` on an operand outside its stated domain, R203. The spec's own
  fault. SAFE: it stops where the interpreter may go on. -/
  | unmodelled (sub : DomainKind) (pc : Word) (info : Word)
  /-- No fault of the spec. The outcome `step` gives in the run status `Stopped`, in which no agent is enabled
  (spec/10_state.md R35; log entry 5). SAFE: no step of the spec is left out. -/
  | stopRequested
deriving DecidableEq, Repr

/-- Reasons to refuse an instruction. -/
inductive Refusal where
  /-- An instruction the model gives no meaning; raised by no arm of `exec`, since all 34 have one. SAFE: a run stops
  there. -/
  | notModelled (mnemonic : String)
deriving DecidableEq, Repr

/-! ## The parts of the state -/

/-- Memory: the listed bytes, by rising address (spec/10_state.md R32); what an unlisted address reads as is
`unlistedByte` of Machine/Ops.lean (log entry 1). -/
abbrev Memory := List Host.Cell

/-- The framebuffer, 32 rows of 64 pixels, true for a set pixel (spec/10_state.md R33): pixel (column `x`, row `y`) is
entry `x` of row `y`, element `y * 64 + x` of the flat grid (log entry 10). -/
abbrev Framebuffer := Vector (Vector Bool 64) 32

/-- The framebuffer with no pixel set. -/
def clearFramebuffer : Framebuffer := Vector.replicate 32 (Vector.replicate 64 false)

/-- The output events (spec/60_exceptions.md R225). -/
inductive Event where
  | displayFrame (fb : Framebuffer)
  | audioStart
  | audioStop
deriving DecidableEq, Repr

/-- The run status (spec/10_state.md R35). -/
inductive RunStatus where
  | running
  | stopped
  | faulted (f : Fault)
deriving DecidableEq, Repr

/-- The two timer countdown units (spec/60_exceptions.md R211). -/
inductive TimerUnit where
  | delay
  | sound
deriving DecidableEq, Repr

/-- A move of the machine: a step of an agent, or what the environment may line up in between (spec/60_exceptions.md R220, R221, R227, R232;
log entry 3). Times are in clock units (log entry 7). -/
inductive Move where
  /-- A step of the CPU agent (spec/40_control_flow.md R100). -/
  | cpu
  /-- A step of a timer agent: one tick (R215, R220). -/
  | tick (u : TimerUnit)
  /-- One timer update with the elapsed time since the previous one (R212). -/
  | update (u : TimerUnit) (delta : Nat)
  /-- One iteration of the real-time loop, with the elapsed time and the stop flag
  (spec/70_reset_and_hazards.md R247). -/
  | iteration (delta : Nat) (stopFlag : Bool)
  /-- The host's stop request (R227). -/
  | stop
  /-- The host ends the run with `ResourceFailure` (R204, R227). -/
  | resourceFailure
deriving DecidableEq, Repr

/-! ## The state -/

/-- The machine's state: spec/10_state.md R38, the event history beside it, and the model's own fields that hold a
step's inputs (R37) as plain data. -/
structure State where
  /-- `V0`-`VF` (R20). -/
  v : Vector Byte 16
  /-- `I` (R25). -/
  i : Word
  /-- `PC` (R23). -/
  pc : Word
  /-- `SP`, two's complement (R26). -/
  sp : BitVec 8
  /-- `DT` (R28). -/
  dt : Byte
  /-- `ST` (R29). -/
  st : Byte
  /-- The return-address stack (R27). -/
  stack : Vector Word 16
  /-- Memory (R32). -/
  mem : Memory
  /-- The framebuffer (R33). -/
  fb : Framebuffer
  /-- The delay unit's accumulator (R34). -/
  accDt : Nat
  /-- The sound unit's accumulator (R34). -/
  accSt : Nat
  /-- The host loop's CPU accumulator (R34). -/
  accCpu : Nat
  /-- The run status (R35). -/
  status : RunStatus
  /-- The event history, oldest first (R38, spec/60_exceptions.md R225). -/
  events : List Event
  /-- The model's own: the lined-up moves; when none is left, those of the next free round follow (log entry 3). -/
  moves : List Move
  /-- The model's own: how many free rounds of the schedule have begun (log entry 3). -/
  rounds : Nat
  /-- The model's own: lined-up keyboard snapshots (log entry 4). -/
  keyQueue : List Config.KeySnapshot
  /-- The model's own: lined-up random bytes (log entry 4). -/
  byteQueue : List Byte
  /-- The model's own: how many free values have been drawn (log entry 4). -/
  draws : Nat
deriving DecidableEq, Repr

/-- The state after construction with no program (spec/10_state.md R36, spec/70_reset_and_hazards.md R240, R241): no
byte of memory is listed, so the font and `MEM_INIT` stand there. -/
def State.reset : State where
  v := Vector.replicate 16 0
  i := 0
  pc := BitVec.ofNat 16 Params.loadAddr
  sp := -1
  dt := 0
  st := 0
  stack := Vector.replicate 16 0
  mem := []
  fb := clearFramebuffer
  accDt := 0
  accSt := 0
  accCpu := 0
  status := .running
  events := []
  moves := []
  rounds := 0
  keyQueue := []
  byteQueue := []
  draws := 0

end Sys2Proof.Machine
end

