-- ==== Sys2Proof/Machine/Ops.lean ====
section
/-! DEFINITION. The named operations over registers, stack, memory, framebuffer, inputs, events and faults, and the step
outcomes of spec/00_scope.md R12. -/

namespace Sys2Proof.Machine

/-- What a meaning or a step answers. -/
abbrev Result := Host.Outcome State Fault Refusal

/-! ## Registers (spec/00_scope.md R10, spec/10_state.md R20 to R29) -/

/-- `V[x]`. -/
def State.reg (s : State) (x : Reg) : Byte := s.v[x]

/-- `V[x] <- b`. -/
def State.setReg (s : State) (x : Reg) (b : Byte) : State := { s with v := s.v.set x b }

/-- `V[k] <- b[k]` for every `k` below the number of bytes; the other registers keep their values
(spec/42_index_memory.md R155). -/
def loadRegs (v : Vector Byte 16) (bs : List Byte) : Vector Byte 16 := Vector.ofFn fun k : Fin 16 => bs.getD k v[k]

/-- `V[0], V[1], ..., V[x]` (spec/42_index_memory.md R154). -/
def State.regsUpTo (s : State) (x : Reg) : List Byte := s.v.toList.take (x.val + 1)

/-- `V <- v`, the whole register file. -/
def State.setRegs (s : State) (v : Vector Byte 16) : State := { s with v := v }

/-- `I <- w`. -/
def State.setI (s : State) (w : Word) : State := { s with i := w }

/-- `PC <- w`. -/
def State.setPc (s : State) (w : Word) : State := { s with pc := w }

/-- `SP <- b`. -/
def State.setSp (s : State) (b : BitVec 8) : State := { s with sp := b }

/-- `stack[k] <- w`. -/
def State.setSlot (s : State) (k : Fin 16) (w : Word) : State := { s with stack := s.stack.set k w }

/-- `DT <- b`. -/
def State.setDt (s : State) (b : Byte) : State := { s with dt := b }

/-- `ST <- b`. -/
def State.setSt (s : State) (b : Byte) : State := { s with st := b }

/-- The stack slot that a value of `SP` names, if it names one: `0 .. 15` (spec/10_state.md R26, R27;
log entry 11). -/
def slotOf (sp : BitVec 8) : Option (Fin 16) := if h : sp.toNat < 16 then some ⟨sp.toNat, h⟩ else none

/-! ## Memory (spec/20_memory.md R50 to R62) -/

/-- The fixed byte an unlisted address reads as, where the spec gives one: the font's (R56, R57). -/
def unlistedByte (a : Nat) : Option Byte :=
  if Params.fontBase ≤ a then Params.fontData[a - Params.fontBase]? else none

/-- The byte listed at an address, if one is. -/
def memFind : Memory → Nat → Option Byte
  | [], _ => none
  | (c, d) :: m, a => if a = c then some d else memFind m a

/-- The byte at an address: the one listed, else the font's, else `MEM_INIT`'s (R56; log entry 1). -/
def memGet (m : Memory) (a : Nat) : Byte := (memFind m a).getD ((unlistedByte a).getD (Config.memInit a))

/-- The list with `(a, b)` before `m`, unless an unlisted `a` reads as `b` anyway. -/
def memCons (a : Nat) (b : Byte) (m : Memory) : Memory := if unlistedByte a = some b then m else (a, b) :: m

/-- The memory with byte `b` at address `a`, in canonical form. -/
def memPut : Memory → Nat → Byte → Memory
  | [], a, b => memCons a b []
  | (c, d) :: m, a, b =>
    if a < c then memCons a b ((c, d) :: m) else if a = c then memCons a b m else (c, d) :: memPut m a b

/-- The canonical form: addresses strictly rising and inside the address space, no entry that an unlisted address would
read as by itself. -/
abbrev Memory.wf (m : Memory) : Prop :=
  m.Pairwise (fun c d => c.1 < d.1) ∧ ∀ c ∈ m, c.1 < Params.memSize ∧ unlistedByte c.1 ≠ some c.2

/-- The `n` bytes from `a` on. -/
def memGetRun (m : Memory) (a : Nat) : Nat → List Byte
  | 0 => []
  | n + 1 => memGet m a :: memGetRun m (a + 1) n

/-- The memory with a run of bytes from `a` on. -/
def memPutRun (m : Memory) (a : Nat) : List Byte → Memory
  | [] => m
  | b :: bs => memPutRun (memPut m a b) (a + 1) bs

/-- `mem <- m`. -/
def State.setMem (s : State) (m : Memory) : State := { s with mem := m }

/-- `MemRead(a, n)`, `n ≥ 1` (R52): the bytes, or `OutOfBounds(Read, a)`. -/
def readBytes (s : State) (a : Word) (n : Nat) : Except Fault (List Byte) :=
  if Params.memSize ≤ a.toNat + n - 1 then .error (.outOfBounds .read s.pc a) else .ok (memGetRun s.mem a.toNat n)

/-- `MemWrite(a, n, b)` for the `n ≥ 1` bytes `bs` (R52): the state with all of them written, or `OutOfBounds(Write, a)`
and nothing written. -/
def writeBytes (s : State) (a : Word) (bs : List Byte) : Except Fault State :=
  if Params.memSize ≤ a.toNat + bs.length - 1 then .error (.outOfBounds .write s.pc a)
  else .ok (s.setMem (memPutRun s.mem a.toNat bs))

/-- `Fetch(PC)` (R52, R51): the big-endian word at `PC`, or `OutOfBounds(Fetch, PC)`. -/
def fetch (s : State) : Except Fault Word :=
  if Params.memSize ≤ s.pc.toNat + 1 then .error (.outOfBounds .fetch s.pc s.pc)
  else .ok (memGet s.mem s.pc.toNat ++ memGet s.mem (s.pc.toNat + 1))

/-! ## Framebuffer (spec/10_state.md R33) -/

/-- `FB[x][y]`: column `x`, row `y`. -/
def pixel (fb : Framebuffer) (x : Fin 64) (y : Fin 32) : Bool := fb[y][x]

/-- `FB[x][y] <- b`. -/
def setPixel (fb : Framebuffer) (x : Fin 64) (y : Fin 32) (b : Bool) : Framebuffer := fb.set y (fb[y].set x b)

/-- `FB <- fb`. -/
def State.setFb (s : State) (fb : Framebuffer) : State := { s with fb := fb }

/-! ## Events (spec/60_exceptions.md R225) -/

/-- `emit e`: the event is appended to the history. -/
def State.emit (s : State) (e : Event) : State := { s with events := s.events ++ [e] }

/-! ## Inputs of a step (spec/10_state.md R37; log entry 4) -/

/-- The snapshot the keyboard source answers at this query (spec/60_exceptions.md R222): the first lined-up one, else a
free one. -/
def State.keys (s : State) : Config.KeySnapshot := s.keyQueue.head?.getD (Config.freeKeys s.draws)

/-- The state once a snapshot has been taken. -/
def State.tookKeys (s : State) : State :=
  { s with keyQueue := s.keyQueue.tail, draws := if s.keyQueue = [] then s.draws + 1 else s.draws }

/-- `RandomByte` (spec/60_exceptions.md R223): the first lined-up byte, else a free one. -/
def State.randomByte (s : State) : Byte := s.byteQueue.head?.getD (Config.freeByte s.draws)

/-- The state once a random byte has been taken. -/
def State.tookByte (s : State) : State :=
  { s with byteQueue := s.byteQueue.tail, draws := if s.byteQueue = [] then s.draws + 1 else s.draws }

/-! ## Which agent moves next (spec/60_exceptions.md R220; log entry 3) -/

/-- `moves <- ms`. -/
def State.setMoves (s : State) (ms : List Move) : State := { s with moves := ms }

/-- A round of the schedule in which every agent steps: the given agents, then each one left out. -/
def fairRound (l : List Config.Agent) : List Config.Agent :=
  l ++ [Config.Agent.cpu, .delay, .sound].filter fun a => !l.contains a

/-- An agent's step as a move. -/
def agentMove : Config.Agent → Move
  | .cpu => .cpu
  | .delay => .tick .delay
  | .sound => .tick .sound

/-- The moves of the `n`-th free round: any admitted order, in which no agent is left out. -/
def freeMoves (n : Nat) : List Move := (fairRound (Config.freeRound n)).map agentMove

/-- The moves lined up: when none is left, those of the next free round. -/
def State.lined (s : State) : List Move := if s.moves = [] then freeMoves s.rounds else s.moves

/-- The machine's next move. A free round is never empty, so one is always lined up. -/
def State.nextMove (s : State) : Move := s.lined.headD .cpu

/-- The state once its next move has been taken. -/
def State.tookMove (s : State) : State :=
  { s with moves := s.lined.tail, rounds := if s.moves = [] then s.rounds + 1 else s.rounds }

/-! ## Timer units (spec/60_exceptions.md R211) -/

/-- The register a timer unit is bound to. -/
def State.timer (s : State) : TimerUnit → Byte
  | .delay => s.dt
  | .sound => s.st

/-- Writing the register a timer unit is bound to. -/
def State.setTimer (s : State) (u : TimerUnit) (b : Byte) : State :=
  match u with
  | .delay => s.setDt b
  | .sound => s.setSt b

/-- A timer unit's accumulator (spec/10_state.md R34). -/
def State.acc (s : State) : TimerUnit → Nat
  | .delay => s.accDt
  | .sound => s.accSt

/-- Writing a timer unit's accumulator. -/
def State.setAcc (s : State) (u : TimerUnit) (t : Nat) : State :=
  match u with
  | .delay => { s with accDt := t }
  | .sound => { s with accSt := t }

/-- Writing the host loop's CPU accumulator (spec/10_state.md R34). -/
def State.setAccCpu (s : State) (t : Nat) : State := { s with accCpu := t }

/-! ## Faults (spec/60_exceptions.md R200 to R206) -/

/-- The run status becomes `st`. -/
def State.setStatus (s : State) (st : RunStatus) : State := { s with status := st }

/-- Taking a fault (R205): the run status becomes `Faulted(record)`, and nothing else of the step is committed. There is
no handler and no return (R208, R209). -/
def State.takeFault (s : State) (f : Fault) : State := s.setStatus (.faulted f)

/-- The code of a fault record (R200, decision D24); the outcome of a stopped run is no record and has none. -/
def Fault.code : Fault → Option Nat
  | .outOfBounds _ _ _ => some 1
  | .illegalInstruction _ _ => some 2
  | .resourceFailure => some 3
  | .unmodelled _ _ _ => some 4
  | .stopRequested => none

/-- The `pc` of a fault record: the address of the instruction whose step faulted (R200). -/
def Fault.pc : Fault → Option Word
  | .outOfBounds _ pc _ | .illegalInstruction pc _ | .unmodelled _ pc _ => some pc
  | .resourceFailure | .stopRequested => none

/-- The `info` of a fault record (R200). -/
def Fault.info : Fault → Option Word
  | .outOfBounds _ _ a => some a
  | .illegalInstruction _ ins => some ins
  | .unmodelled _ _ w => some w
  | .resourceFailure | .stopRequested => none

/-! ## Outcomes of one instruction (spec/00_scope.md R12, spec/10_state.md R23) -/

/-- The address of the next instruction: `(PC + 2) mod 2^16`. -/
def nextPc (s : State) : Word := s.pc + 2

/-- `Advance`: the engine adds 2 to `PC`. -/
def advance (s : State) : Result := .next (s.setPc (nextPc s))

/-- `Redirect` to `target`: the instruction has set `PC`, the engine adds nothing. -/
def redirect (s : State) (target : Word) : Result := .next (s.setPc target)

/-- `Retry`: `PC` is unchanged, the same instruction is fetched at the next CPU step. -/
def retry (s : State) : Result := .next s

/-- `Fault(kind, info)`: the instruction gives no state; the engine takes the fault in the state before the step (R205). -/
def raise (f : Fault) : Result := .fault f

/-- The skip mechanism (spec/40_control_flow.md R105): one more instruction width when the condition holds, then
`Advance`. -/
def skipIf (c : Bool) (s : State) : Result := advance (if c then s.setPc (nextPc s) else s)

end Sys2Proof.Machine
end

