-- ==== Sys2Proof/Machine/Operands.lean ====
section
/-! DEFINITION. The operand forms: how a field or a register value becomes an address, a key index, a glyph address,
decimal digits or sprite pixels (spec/30_encoding.md R73). -/

namespace Sys2Proof.Machine

/-- `zext_16(nnn)`: an address field as a value of `PC` or `I` (spec/30_encoding.md R73). -/
def addrOf (nnn : Addr) : Word := nnn.setWidth 16

/-- `(zext_16(nnn) + V0) mod 4096`, the target of `JP V0,nnn` (spec/40_control_flow.md R104). -/
def offsetTarget (nnn : Addr) (v0 : Byte) : Word := BitVec.ofNat 16 ((nnn.toNat + v0.toNat) % 4096)

/-- `(I + V[x]) mod 2^16` (spec/42_index_memory.md R151). -/
def indexSum (i : Word) (b : Byte) : Word := i + b.setWidth 16

/-- The index `0 .. 15` a register value names, if it names one: a key (spec/44_keypad_timer_access.md R180) or a font
digit (spec/42_index_memory.md R152). -/
def index16 (b : Byte) : Option (Fin 16) := if h : b.toNat < 16 then some ⟨b.toNat, h⟩ else none

/-- The value of a register as the `info` of a fault record (spec/60_exceptions.md R200). -/
def infoOf (b : Byte) : Word := b.setWidth 16

/-- The address of a digit's glyph: `FONT_BASE + 5 * d` (spec/42_index_memory.md R152). -/
def glyphAddr (d : Fin 16) : Word := BitVec.ofNat 16 (Params.fontBase + Params.glyphBytes * d.val)

/-- Hundreds, tens and ones (spec/42_index_memory.md R153). -/
def bcdDigits (b : Byte) : List Byte := [b / 100, (b / 10) % 10, b % 10]

/-- The lowest-indexed pressed key of a snapshot (spec/44_keypad_timer_access.md R182). -/
def lowestKey (snap : Config.KeySnapshot) : Option (Fin 16) := (List.finRange 16).find? fun k => snap[k]

/-- A key index as a register value. -/
def keyByte (k : Fin 16) : Byte := BitVec.ofNat 8 k.val

/-- The pixels one sprite byte toggles in row `py`, from column `cx` on, left to right: bit 7 is the leftmost
(spec/43_display.md R171). Columns wrap modulo 64. -/
def rowPixels (cx : Nat) (py : Fin 32) (b : Byte) : List (Fin 64 × Fin 32) :=
  (List.range 8).filterMap fun c => if b.getLsbD (7 - c) then some (Fin.ofNat 64 (cx + c), py) else none

/-- The pixels a sprite toggles, in the order of the loops of spec/43_display.md R171: the first byte in row `cy`, each
next byte one row lower, rows wrapping modulo 32. -/
def spritePixels (cx : Nat) : Nat → List Byte → List (Fin 64 × Fin 32)
  | _, [] => []
  | cy, b :: rows => rowPixels cx (Fin.ofNat 32 cy) b ++ spritePixels cx (cy + 1) rows

end Sys2Proof.Machine
end

