-- ==== Sys2Proof/Machine/Flags.lean ====
section
/-! DEFINITION. The ALU and the flag `VF`: every flag computation of the spec (spec/41_alu.md R120 to R124,
spec/43_display.md R171). -/

namespace Sys2Proof.Machine

/-- The operations of the ALU (spec/41_alu.md R120). -/
inductive AluOp where
  | pass
  | or
  | and
  | xor
  | addNf
  | add
  | sub
  | subn
  | shr
  | shl
deriving DecidableEq, Repr

/-- The carry of `a + b`: 1 iff the sum is above 255 (spec/41_alu.md R123). -/
def carry (a b : Byte) : Bool := 255 < a.toNat + b.toNat

/-- The flag of `a - b`: 1 iff `a > b`, so 0 at equality (spec/41_alu.md R123, conflict C2). -/
def aboveFlag (a b : Byte) : Bool := b.toNat < a.toNat

/-- `ALU(op, a, b) -> (r, f)`, with no flag for the operations that write none (spec/41_alu.md R120). -/
def alu (op : AluOp) (a b : Byte) : Byte × Option Bool :=
  match op with
  | .pass => (b, none)
  | .or => (a ||| b, none)
  | .and => (a &&& b, none)
  | .xor => (a ^^^ b, none)
  | .addNf => (a + b, none)
  | .add => (a + b, some (carry a b))
  | .sub => (a - b, some (aboveFlag a b))
  | .subn => (b - a, some (aboveFlag b a))
  | .shr => (a >>> 1, some (a.getLsbD 0))
  | .shl => (a <<< 1, some (a.getLsbD 7))

/-- The value a flag write stores: `0x00` or `0x01` (spec/10_state.md R30). -/
def flagByte (f : Bool) : Byte := if f then 1 else 0

/-- `V[0xF] <- f`. -/
def State.setFlag (s : State) (f : Bool) : State := s.setReg flagReg (flagByte f)

/-- Writing an ALU answer back: the result to `V[x]` first and then the flag, if there is one, to `VF`
(spec/41_alu.md R122). -/
def State.writeBack (s : State) (x : Reg) (r : Byte × Option Bool) : State :=
  match r.2 with
  | none => s.setReg x r.1
  | some f => (s.setReg x r.1).setFlag f

/-- An ALU instruction: both operands are read, then the answer is written back, then `Advance`. -/
def aluInto (op : AluOp) (x : Reg) (a b : Byte) (s : State) : Result := advance (s.writeBack x (alu op a b))

/-- The flag half of a shift, from the value before the shift (spec/41_alu.md R130, R132). -/
def State.shiftFlag (s : State) (op : AluOp) (x : Reg) : State :=
  match (alu op (s.reg x) 0).2 with
  | none => s
  | some f => s.setFlag f

/-- A shift instruction: the flag is written first, and then `V[x]` as it then stands is shifted (spec/41_alu.md R130,
decision D13). -/
def shiftInto (op : AluOp) (x : Reg) (s : State) : Result :=
  let flagged := s.shiftFlag op x
  advance (flagged.setReg x (alu op (flagged.reg x) 0).1)

/-- Toggling one pixel of a draw: the framebuffer after it, and whether some pixel so far went from set to unset
(spec/43_display.md R171). -/
def togglePixel (d : Framebuffer × Bool) (p : Fin 64 × Fin 32) : Framebuffer × Bool :=
  (setPixel d.1 p.1 p.2 (!pixel d.1 p.1 p.2), d.2 || pixel d.1 p.1 p.2)

/-- Drawing a list of pixels: the framebuffer after it and the collision flag. -/
def drawPixels (fb : Framebuffer) (ps : List (Fin 64 × Fin 32)) : Framebuffer × Bool := ps.foldl togglePixel (fb, false)

end Sys2Proof.Machine
end

