-- ==== Sys2Proof/Machine/Alu.lean ====
section
/-! DEFINITION. ALU, register loads and random (spec/41_alu.md R125 to R136). -/

namespace Sys2Proof.Machine

/-- `LD Vx,kk` (R125). -/
def execLdK (x : Reg) (kk : Byte) (s : State) : Result := aluInto .pass x (s.reg x) kk s

/-- `ADD Vx,kk` (R126): no flag. -/
def execAddK (x : Reg) (kk : Byte) (s : State) : Result := aluInto .addNf x (s.reg x) kk s

/-- `LD Vx,Vy` (R127). -/
def execLdV (x y : Reg) (s : State) : Result := aluInto .pass x (s.reg x) (s.reg y) s

/-- `OR Vx,Vy` (R133): no flag. -/
def execOrV (x y : Reg) (s : State) : Result := aluInto .or x (s.reg x) (s.reg y) s

/-- `AND Vx,Vy` (R134): no flag. -/
def execAndV (x y : Reg) (s : State) : Result := aluInto .and x (s.reg x) (s.reg y) s

/-- `XOR Vx,Vy` (R135): no flag. -/
def execXorV (x y : Reg) (s : State) : Result := aluInto .xor x (s.reg x) (s.reg y) s

/-- `ADD Vx,Vy` (R128). -/
def execAddV (x y : Reg) (s : State) : Result := aluInto .add x (s.reg x) (s.reg y) s

/-- `SUB Vx,Vy` (R129). -/
def execSub (x y : Reg) (s : State) : Result := aluInto .sub x (s.reg x) (s.reg y) s

/-- `SHR Vx` (R130); the field `y` is ignored (spec/30_encoding.md R82). -/
def execShr (x _y : Reg) (s : State) : Result := shiftInto .shr x s

/-- `SUBN Vx,Vy` (R131). -/
def execSubn (x y : Reg) (s : State) : Result := aluInto .subn x (s.reg x) (s.reg y) s

/-- `SHL Vx` (R132); the field `y` is ignored (spec/30_encoding.md R82). -/
def execShl (x _y : Reg) (s : State) : Result := shiftInto .shl x s

/-- `RND Vx,kk` (R136): the step's random byte under the mask `kk`. -/
def execRnd (x : Reg) (kk : Byte) (s : State) : Result := aluInto .and x s.randomByte kk s.tookByte

end Sys2Proof.Machine
end

