-- ==== Sys2Proof/Machine/ControlFlow.lean ====
section
/-! DEFINITION. Control transfer (spec/40_control_flow.md R101 to R109). -/

namespace Sys2Proof.Machine

/-- `RET` (R101): pop the top slot into `PC`, then `Advance` past the `CALL` whose address it holds (decision D8). -/
def execRet (s : State) : Result :=
  match slotOf s.sp with
  | none => raise (.outOfBounds .stackUnderflow s.pc s.pc)
  | some k => advance ((s.setPc s.stack[k]).setSp (s.sp - 1))

/-- `JP nnn` (R102). -/
def execJp (nnn : Addr) (s : State) : Result := redirect s (addrOf nnn)

/-- `CALL nnn` (R103): `SP + 1` must name a slot; it takes the address of the `CALL` itself (decision D9). -/
def execCall (nnn : Addr) (s : State) : Result :=
  match slotOf (s.sp + 1) with
  | none => raise (.outOfBounds .stackOverflow s.pc s.pc)
  | some k => redirect ((s.setSp (s.sp + 1)).setSlot k s.pc) (addrOf nnn)

/-- `JP V0,nnn` (R104). -/
def execJpV0 (nnn : Addr) (s : State) : Result := redirect s (offsetTarget nnn (s.reg 0))

/-- `SE Vx,kk` (R106). -/
def execSeK (x : Reg) (kk : Byte) (s : State) : Result := skipIf (s.reg x == kk) s

/-- `SNE Vx,kk` (R107). -/
def execSneK (x : Reg) (kk : Byte) (s : State) : Result := skipIf (s.reg x != kk) s

/-- `SE Vx,Vy` (R108). -/
def execSeV (x y : Reg) (s : State) : Result := skipIf (s.reg x == s.reg y) s

/-- `SNE Vx,Vy` (R109). -/
def execSneV (x y : Reg) (s : State) : Result := skipIf (s.reg x != s.reg y) s

end Sys2Proof.Machine
end

