-- ==== Sys2Proof/Syntax.lean ====
section
/-! DEFINITION. The 34 instructions (spec/30_encoding.md R87), one constructor per row of spec/opcode_table.json, in the
table's order. The operands are the fields of R71, at their own widths. -/

namespace Sys2Proof

/-- An instruction with its fields, as `Decode` of spec/30_encoding.md R74 answers it. -/
inductive Instr where
  /-- `00E0` -/
  | cls
  /-- `00EE` -/
  | ret
  /-- `1nnn` -/
  | jp (nnn : Addr)
  /-- `2nnn` -/
  | call (nnn : Addr)
  /-- `3xkk` -/
  | seK (x : Reg) (kk : Byte)
  /-- `4xkk` -/
  | sneK (x : Reg) (kk : Byte)
  /-- `5xy0` -/
  | seV (x y : Reg)
  /-- `6xkk` -/
  | ldK (x : Reg) (kk : Byte)
  /-- `7xkk` -/
  | addK (x : Reg) (kk : Byte)
  /-- `8xy0` -/
  | ldV (x y : Reg)
  /-- `8xy1` -/
  | orV (x y : Reg)
  /-- `8xy2` -/
  | andV (x y : Reg)
  /-- `8xy3` -/
  | xorV (x y : Reg)
  /-- `8xy4` -/
  | addV (x y : Reg)
  /-- `8xy5` -/
  | sub (x y : Reg)
  /-- `8xy6`; the field `y` is carried, and ignored by the meaning (R82) -/
  | shr (x y : Reg)
  /-- `8xy7` -/
  | subn (x y : Reg)
  /-- `8xyE`; the field `y` is carried, and ignored by the meaning (R82) -/
  | shl (x y : Reg)
  /-- `9xy0` -/
  | sneV (x y : Reg)
  /-- `Annn` -/
  | ldI (nnn : Addr)
  /-- `Bnnn` -/
  | jpV0 (nnn : Addr)
  /-- `Cxkk` -/
  | rnd (x : Reg) (kk : Byte)
  /-- `Dxyn` -/
  | drw (x y : Reg) (n : Nibble)
  /-- `Ex9E` -/
  | skp (x : Reg)
  /-- `ExA1` -/
  | sknp (x : Reg)
  /-- `Fx07` -/
  | ldVxDt (x : Reg)
  /-- `Fx0A` -/
  | ldVxK (x : Reg)
  /-- `Fx15` -/
  | ldDtVx (x : Reg)
  /-- `Fx18` -/
  | ldStVx (x : Reg)
  /-- `Fx1E` -/
  | addI (x : Reg)
  /-- `Fx29` -/
  | ldF (x : Reg)
  /-- `Fx33` -/
  | ldB (x : Reg)
  /-- `Fx55` -/
  | ldMemVx (x : Reg)
  /-- `Fx65` -/
  | ldVxMem (x : Reg)
deriving DecidableEq, Repr

end Sys2Proof
end

