-- ==== Sys2Proof/Decode.lean ====
section
/-! DEFINITION. The decoder, total on any bytes (spec/30_encoding.md R70 to R84), and the encoder written from the same
formats (R72). -/

namespace Sys2Proof

/-! ## Fields (spec/30_encoding.md R71) -/

/-- `ins[15:12]`, the opcode family. -/
def fieldOp (w : Word) : Nat := (w.extractLsb' 12 4).toNat

/-- `ins[11:8]`, the first register index. -/
def fieldX (w : Word) : Reg := (w.extractLsb' 8 4).toFin

/-- `ins[7:4]`, the second register index. -/
def fieldY (w : Word) : Reg := (w.extractLsb' 4 4).toFin

/-- `ins[3:0]`, the 4-bit immediate or sub-opcode. -/
def fieldN (w : Word) : Nibble := w.extractLsb' 0 4

/-- `ins[7:0]`, the 8-bit immediate or sub-opcode. -/
def fieldKk (w : Word) : Byte := w.extractLsb' 0 8

/-- `ins[11:0]`, the 12-bit address. -/
def fieldNnn (w : Word) : Addr := w.extractLsb' 0 12

/-! ## The decoder (spec/30_encoding.md R74) -/

/-- Family `0x0` (R75): `00E0` and `00EE`, by the whole word. -/
def decodeFamily0 (w : Word) : Option Instr :=
  match w.toNat with
  | 0x00E0 => some .cls
  | 0x00EE => some .ret
  | _ => none

/-- Family `0x8` (R78), sub-opcode in the low nibble. -/
def decodeFamily8 (w : Word) : Option Instr :=
  match (fieldN w).toNat with
  | 0x0 => some (.ldV (fieldX w) (fieldY w))
  | 0x1 => some (.orV (fieldX w) (fieldY w))
  | 0x2 => some (.andV (fieldX w) (fieldY w))
  | 0x3 => some (.xorV (fieldX w) (fieldY w))
  | 0x4 => some (.addV (fieldX w) (fieldY w))
  | 0x5 => some (.sub (fieldX w) (fieldY w))
  | 0x6 => some (.shr (fieldX w) (fieldY w))
  | 0x7 => some (.subn (fieldX w) (fieldY w))
  | 0xE => some (.shl (fieldX w) (fieldY w))
  | _ => none

/-- Family `0xE` (R79), sub-opcode in the low byte. -/
def decodeFamilyE (w : Word) : Option Instr :=
  match (fieldKk w).toNat with
  | 0x9E => some (.skp (fieldX w))
  | 0xA1 => some (.sknp (fieldX w))
  | _ => none

/-- Family `0xF` (R80), sub-opcode in the low byte. -/
def decodeFamilyF (w : Word) : Option Instr :=
  match (fieldKk w).toNat with
  | 0x07 => some (.ldVxDt (fieldX w))
  | 0x0A => some (.ldVxK (fieldX w))
  | 0x15 => some (.ldDtVx (fieldX w))
  | 0x18 => some (.ldStVx (fieldX w))
  | 0x1E => some (.addI (fieldX w))
  | 0x29 => some (.ldF (fieldX w))
  | 0x33 => some (.ldB (fieldX w))
  | 0x55 => some (.ldMemVx (fieldX w))
  | 0x65 => some (.ldVxMem (fieldX w))
  | _ => none

/-- `Decode(ins)` of R74: an instruction with its fields, or `none` for `Illegal`. -/
def decodeWord (w : Word) : Option Instr :=
  match fieldOp w with
  | 0x0 => decodeFamily0 w
  | 0x1 => some (.jp (fieldNnn w))
  | 0x2 => some (.call (fieldNnn w))
  | 0x3 => some (.seK (fieldX w) (fieldKk w))
  | 0x4 => some (.sneK (fieldX w) (fieldKk w))
  | 0x5 => if fieldN w = 0 then some (.seV (fieldX w) (fieldY w)) else none
  | 0x6 => some (.ldK (fieldX w) (fieldKk w))
  | 0x7 => some (.addK (fieldX w) (fieldKk w))
  | 0x8 => decodeFamily8 w
  | 0x9 => if fieldN w = 0 then some (.sneV (fieldX w) (fieldY w)) else none
  | 0xA => some (.ldI (fieldNnn w))
  | 0xB => some (.jpV0 (fieldNnn w))
  | 0xC => some (.rnd (fieldX w) (fieldKk w))
  | 0xD => some (.drw (fieldX w) (fieldY w) (fieldN w))
  | 0xE => decodeFamilyE w
  | 0xF => decodeFamilyF w
  | _ => none

/-- The 16-bit instruction of two bytes in memory order: the byte at the lower address holds `ins[15:8]`
(spec/20_memory.md R51). -/
def wordOfBytes (first second : Byte) : Word := first ++ second

/-- The two bytes of a 16-bit instruction in memory order (spec/20_memory.md R51). -/
def bytesOfWord (w : Word) : List Byte := [w.extractLsb' 8 8, w.extractLsb' 0 8]

/-- Why bytes do not decode. -/
inductive DecodeError where
  /-- Fewer than two bytes: every instruction is exactly 2 bytes (R70). -/
  | truncated
  /-- A word that matches no pattern of R74 (R81). -/
  | illegal (ins : Word)
deriving DecidableEq, Repr

/-- Decoding a run of bytes: the instruction its first two bytes hold and the bytes after it, or the reason there is
none (R70, R74). -/
def decode : List Byte → Except DecodeError (Instr × List Byte)
  | first :: second :: rest =>
    match decodeWord (wordOfBytes first second) with
    | some i => .ok (i, rest)
    | none => .error (.illegal (wordOfBytes first second))
  | [] | [_] => .error .truncated

/-! ## The encoder (spec/30_encoding.md R72) -/

/-- Format `A`: `op:4` `nnn:12`. -/
def encodeA (op : Nibble) (nnn : Addr) : Word := op ++ nnn

/-- Formats `XK` and `X`: `op:4` `x:4` `kk:8`. -/
def encodeXK (op : Nibble) (x : Reg) (kk : Byte) : Word := op ++ (BitVec.ofFin x : Nibble) ++ kk

/-- Formats `XY` and `XYN`: `op:4` `x:4` `y:4` `n:4`. -/
def encodeXYN (op : Nibble) (x y : Reg) (n : Nibble) : Word :=
  op ++ (BitVec.ofFin x : Nibble) ++ (BitVec.ofFin y : Nibble) ++ n

/-- The word of an instruction (R75 to R80). -/
def encodeWord : Instr → Word
  | .cls => 0x00E0
  | .ret => 0x00EE
  | .jp nnn => encodeA 0x1 nnn
  | .call nnn => encodeA 0x2 nnn
  | .seK x kk => encodeXK 0x3 x kk
  | .sneK x kk => encodeXK 0x4 x kk
  | .seV x y => encodeXYN 0x5 x y 0x0
  | .ldK x kk => encodeXK 0x6 x kk
  | .addK x kk => encodeXK 0x7 x kk
  | .ldV x y => encodeXYN 0x8 x y 0x0
  | .orV x y => encodeXYN 0x8 x y 0x1
  | .andV x y => encodeXYN 0x8 x y 0x2
  | .xorV x y => encodeXYN 0x8 x y 0x3
  | .addV x y => encodeXYN 0x8 x y 0x4
  | .sub x y => encodeXYN 0x8 x y 0x5
  | .shr x y => encodeXYN 0x8 x y 0x6
  | .subn x y => encodeXYN 0x8 x y 0x7
  | .shl x y => encodeXYN 0x8 x y 0xE
  | .sneV x y => encodeXYN 0x9 x y 0x0
  | .ldI nnn => encodeA 0xA nnn
  | .jpV0 nnn => encodeA 0xB nnn
  | .rnd x kk => encodeXK 0xC x kk
  | .drw x y n => encodeXYN 0xD x y n
  | .skp x => encodeXK 0xE x 0x9E
  | .sknp x => encodeXK 0xE x 0xA1
  | .ldVxDt x => encodeXK 0xF x 0x07
  | .ldVxK x => encodeXK 0xF x 0x0A
  | .ldDtVx x => encodeXK 0xF x 0x15
  | .ldStVx x => encodeXK 0xF x 0x18
  | .addI x => encodeXK 0xF x 0x1E
  | .ldF x => encodeXK 0xF x 0x29
  | .ldB x => encodeXK 0xF x 0x33
  | .ldMemVx x => encodeXK 0xF x 0x55
  | .ldVxMem x => encodeXK 0xF x 0x65

/-- The bytes of an instruction as memory holds them (spec/20_memory.md R51). -/
def encode (i : Instr) : List Byte := bytesOfWord (encodeWord i)

/-! ## The opcode table's numbering -/

/-- The word whose bits are `w`, of which the table gives the low `nbits`: spec/opcode_table.json numbers a row's bits
as one 16-bit number, bit 0 the least significant. -/
def tableWord (nbits w : Nat) : Word := BitVec.ofNat 16 (w % 2 ^ nbits)

/-- The instruction the decoder reads from the bytes of a table word, laid out as memory holds them. -/
def decodeTableWord (nbits w : Nat) : Option Instr :=
  match decode (bytesOfWord (tableWord nbits w)) with
  | .ok (i, _) => some i
  | .error _ => none

end Sys2Proof
end

