-- ==== Sys2Proof/Machine/Display.lean ====
section
/-! DEFINITION. Framebuffer instructions (spec/43_display.md R170 to R172). -/

namespace Sys2Proof.Machine

/-- `CLS` (R170). -/
def execCls (s : State) : Result := advance ((s.setFb clearFramebuffer).emit (.displayFrame clearFramebuffer))

/-- The effect of a draw whose coordinates and sprite rows have been read (R171): framebuffer, collision flag, one
frame. -/
def State.draw (s : State) (cx cy : Byte) (rows : List Byte) : State :=
  let d := drawPixels s.fb (spritePixels cx.toNat cy.toNat rows)
  ((s.setFb d.1).setFlag d.2).emit (.displayFrame d.1)

/-- `DRW Vx,Vy,n` (R171): the height is checked before the bounds (spec/60_exceptions.md R206); log entry 12 on a remark of
R171 about a second draw. -/
def execDrw (x y : Reg) (n : Nibble) (s : State) : Result :=
  if n = 0 then raise (.unmodelled .spriteHeightZero s.pc (encodeWord (.drw x y n)))
  else
    match readBytes s s.i n.toNat with
    | .error f => raise f
    | .ok rows => advance (s.draw (s.reg x) (s.reg y) rows)

end Sys2Proof.Machine
end

