-- ==== Sys2Proof/Machine/Index.lean ====
section
/-! DEFINITION. Index register and memory transfer (spec/42_index_memory.md R150 to R155). -/

namespace Sys2Proof.Machine

/-- `LD I,nnn` (R150). -/
def execLdI (nnn : Addr) (s : State) : Result := advance (s.setI (addrOf nnn))

/-- `ADD I,Vx` (R151): modulo 2^16, no flag. -/
def execAddI (x : Reg) (s : State) : Result := advance (s.setI (indexSum s.i (s.reg x)))

/-- `LD F,Vx` (R152): a digit above 15 names no glyph. -/
def execLdF (x : Reg) (s : State) : Result :=
  match index16 (s.reg x) with
  | none => raise (.unmodelled .fontDigit s.pc (infoOf (s.reg x)))
  | some d => advance (s.setI (glyphAddr d))

/-- Storing a run of bytes at `I`, then `Advance`; or the fault of the bounds check (spec/20_memory.md R52). -/
def storeAtI (bs : List Byte) (s : State) : Result :=
  match writeBytes s s.i bs with
  | .error f => raise f
  | .ok t => advance t

/-- `LD B,Vx` (R153). -/
def execLdB (x : Reg) (s : State) : Result := storeAtI (bcdDigits (s.reg x)) s

/-- `LD [I],Vx` (R154). -/
def execLdMemVx (x : Reg) (s : State) : Result := storeAtI (s.regsUpTo x) s

/-- `LD Vx,[I]` (R155). -/
def execLdVxMem (x : Reg) (s : State) : Result :=
  match readBytes s s.i (x.val + 1) with
  | .error f => raise f
  | .ok bs => advance (s.setRegs (loadRegs s.v bs))

end Sys2Proof.Machine
end

