-- ==== Sys2Proof/Machine/Keypad.lean ====
section
/-! DEFINITION. Keypad and timer-register instructions (spec/44_keypad_timer_access.md R180 to R185). -/

namespace Sys2Proof.Machine

/-- A skip on the state of the key `V[x]` (R180, R181): the condition is that its state is `pressed`. The index is checked
before the snapshot is taken; one above 15 names no key. -/
def skipOnKey (x : Reg) (pressed : Bool) (s : State) : Result :=
  match index16 (s.reg x) with
  | none => raise (.unmodelled .keyIndex s.pc (infoOf (s.reg x)))
  | some k => skipIf (s.keys[k] == pressed) s.tookKeys

/-- `SKP Vx` (R180). -/
def execSkp (x : Reg) (s : State) : Result := skipOnKey x true s

/-- `SKNP Vx` (R181). -/
def execSknp (x : Reg) (s : State) : Result := skipOnKey x false s

/-- `LD Vx,DT` (R183). -/
def execLdVxDt (x : Reg) (s : State) : Result := advance (s.setReg x s.dt)

/-- The state a key wait leaves (R182): with no key pressed, that of `Retry`; else the lowest pressed key in `V[x]` and
that of `Advance`. -/
def State.keyWait (s : State) (x : Reg) : State :=
  match lowestKey s.keys with
  | none => s.tookKeys
  | some k => (s.tookKeys.setReg x (keyByte k)).setPc (nextPc s)

/-- `LD Vx,K` (R182): no snapshot faults, so the outcome is a next state whatever the keys are. -/
def execLdVxK (x : Reg) (s : State) : Result := .next (s.keyWait x)

/-- `LD DT,Vx` (R184): no event, and the unit's accumulator is untouched. -/
def execLdDtVx (x : Reg) (s : State) : Result := advance (s.setDt (s.reg x))

/-- The audio signal for a loaded sound-timer value (R185). -/
def audioEvent (b : Byte) : Event := if b = 0 then .audioStop else .audioStart

/-- `LD ST,Vx` (R185): one audio event at every execution (conflict C4). -/
def execLdStVx (x : Reg) (s : State) : Result := advance ((s.setSt (s.reg x)).emit (audioEvent (s.reg x)))

end Sys2Proof.Machine
end

