-- ==== Sys2Proof/Machine/Engine.lean ====
section
/-! DEFINITION. The engine's CPU step (spec/40_control_flow.md R100), the timer units (spec/60_exceptions.md R212, R215),
the host's loop and control (spec/70_reset_and_hazards.md R247, spec/60_exceptions.md R227), and which of them moves next
(R220). -/

namespace Sys2Proof.Machine

/-! ## The CPU agent -/

/-- Fetch and classify (R100): the instruction at `PC`, or the fetch's fault, or `IllegalInstruction(ins, PC)`. -/
def fetchDecode (s : State) : Except Fault Instr :=
  match fetch s with
  | .error f => .error f
  | .ok w =>
    match decodeWord w with
    | none => .error (.illegalInstruction s.pc w)
    | some i => .ok i

/-- Acting on an instruction's outcome (R100): a fault is taken in the state before the step (spec/60_exceptions.md
R205), any other outcome stands. -/
def settle (s : State) (r : Result) : Result :=
  match r with
  | .next t => .next t
  | .fault f => .next (s.takeFault f)
  | .refused e => .refused e

/-- `CpuStep(s)` (R100). -/
def cpuStep (s : State) : Result :=
  match fetchDecode s with
  | .error f => settle s (.fault f)
  | .ok i => settle s (exec i s)

/-! ## The timer agents -/

/-- `TimerTick(unit)` (spec/60_exceptions.md R215, R216). -/
def timerTick (u : TimerUnit) (s : State) : State :=
  if s.timer u = 0 then s
  else
    let t := s.setTimer u (s.timer u - 1)
    if u = .sound ∧ t.timer u = 0 then t.emit .audioStop else t

/-- `n` ticks, one after the other. -/
def timerTicks (u : TimerUnit) : Nat → State → State
  | 0, s => s
  | n + 1, s => timerTicks u n (timerTick u s)

/-- `TimerUpdate(unit, delta)` (spec/60_exceptions.md R212): the loop runs once per whole period in the accumulator, and
leaves the rest in it. -/
def timerUpdate (u : TimerUnit) (delta : Nat) (s : State) : State :=
  let elapsed := s.acc u + delta
  timerTicks u (elapsed / Params.timerPeriod) (s.setAcc u (elapsed % Params.timerPeriod))

/-! ## The host -/

/-- Taking one period's worth of time out of the CPU accumulator (spec/70_reset_and_hazards.md R247: "not reset to
zero"). -/
def spendCpuPeriod (r : Result) : Result :=
  match r with
  | .next t => .next (t.setAccCpu (t.accCpu - Params.cpuTickPeriod))
  | .fault f => .fault f
  | .refused e => .refused e

/-- `Iteration(delta)` (spec/70_reset_and_hazards.md R247, decision D26): stop check, delay unit, sound unit, then at most
one CPU step (log entry 13 on the composite). -/
def iteration (delta : Nat) (stopFlag : Bool) (s : State) : Result :=
  if stopFlag then .next (s.setStatus .stopped)
  else
    let timed := timerUpdate .sound delta (timerUpdate .delay delta s)
    let t := timed.setAccCpu (timed.accCpu + delta)
    if Params.cpuTickPeriod ≤ t.accCpu then spendCpuPeriod (cpuStep t) else .next t

/-- One move of the schedule (spec/60_exceptions.md R220, R227, R232). -/
def perform (m : Move) (s : State) : Result :=
  match m with
  | .cpu => cpuStep s
  | .tick u => .next (timerTick u s)
  | .update u delta => .next (timerUpdate u delta s)
  | .iteration delta stopFlag => iteration delta stopFlag s
  | .stop => .next (s.setStatus .stopped)
  | .resourceFailure => .next (s.takeFault .resourceFailure)

/-- One step of the machine while it runs: the next move of the schedule (log entry 3). -/
def runStep (s : State) : Result := perform s.nextMove s.tookMove

/-- One step: enabled only in the run status `Running` (spec/10_state.md R35). In `Faulted` the outcome is the record the
host receives (spec/60_exceptions.md R205), in `Stopped` it is the end of the run (log entry 5). -/
def machineStep (s : State) : Result :=
  match s.status with
  | .running => runStep s
  | .stopped => .fault .stopRequested
  | .faulted f => .fault f

/-! ## Placing an instruction -/

/-- The state with a run of bytes placed from `PC` on and the machine running with the CPU to move next. -/
def State.placeAtPc (s : State) (bs : List Byte) : State :=
  ((s.setMem (memPutRun s.mem s.pc.toNat bs)).setStatus .running).setMoves
    (if s.moves.head? = some .cpu then s.moves else .cpu :: s.moves)

end Sys2Proof.Machine
end

