-- ==== Sys2Proof/Machine/Step.lean ====
section
/-! DEFINITION. One step of the machine, and the placing of an instruction where the step fetches it. -/

namespace Sys2Proof.Machine

/-- One step of the machine (Machine/Engine.lean). -/
def step (s : State) : Host.Outcome State Fault Refusal := machineStep s

/-- `s` with the instruction of a table word stored at `PC`, running, and the CPU to move next. -/
def State.withFetchWord (s : State) (nbits w : Nat) : State := s.placeAtPc (bytesOfWord (tableWord nbits w))

end Sys2Proof.Machine
end

