-- ==== Sys2Proof/Machine/Boot.lean ====
section
/-! DEFINITION. Construction of the block with a program (spec/60_exceptions.md R228, spec/70_reset_and_hazards.md R240,
R241): how a program comes to run from reset (log entry 2). -/

namespace Sys2Proof.Machine

/-- Why construction fails (spec/70_reset_and_hazards.md R241). -/
inductive LoadError where
  /-- The program, of this many bytes, does not fit in the memory from the load address on. -/
  | sizeMismatch (length : Nat)
deriving DecidableEq, Repr

/-- The most bytes a program may have: `MEM_SIZE - LOAD_ADDR` (R241). -/
def loadCapacity : Nat := Params.memSize - Params.loadAddr

/-- Construction with the loader's bytes: the reset state with them copied from `LOAD_ADDR` on, or the size mismatch. -/
def construct (program : List Byte) : Except LoadError State :=
  if loadCapacity < program.length then .error (.sizeMismatch program.length)
  else .ok (State.reset.setMem (memPutRun State.reset.mem Params.loadAddr program))

end Sys2Proof.Machine
end

