-- ==== Sys2Proof/Safety.lean ====
section
/-! DEFINITION. The terms the statements use: the invariant of the machine's data, what counts as a safe run, and what
an instruction leaves unchanged. -/

namespace Sys2Proof.Machine

/-- `SP` is in `-1 .. 15` (spec/10_state.md R26). -/
abbrev State.spLegal (s : State) : Prop := -1 ≤ s.sp.toInt ∧ s.sp.toInt ≤ 15

/-- Every return address is one from which a fetch succeeded, at most `0xFFE` (spec/10_state.md R24, R27). -/
abbrev State.stackLegal (s : State) : Prop := ∀ k : Fin 16, s.stack[k].toNat + 1 < Params.memSize

/-- The accumulators are below the period between updates (spec/10_state.md R34). -/
abbrev State.accLegal (s : State) : Prop := s.accDt < Params.timerPeriod ∧ s.accSt < Params.timerPeriod

/-- A recorded fault names the `PC` it is held with, since a fault commits nothing (spec/60_exceptions.md R200, R205). -/
abbrev State.faultPrecise (s : State) : Prop :=
  match s.status with
  | .faulted f => f.pc = none ∨ f.pc = some s.pc
  | .running | .stopped => True

/-- The invariant every step keeps: memory in canonical form, `SP` in its range, `PC` at most `0x1003`
(spec/10_state.md R24), return addresses inside memory, accumulators below the period, faults precise. -/
structure State.Inv (s : State) : Prop where
  mem : Memory.wf s.mem
  sp : s.spLegal
  pc : s.pc.toNat ≤ 0x1003
  stack : s.stackLegal
  acc : s.accLegal
  fault : s.faultPrecise

/-- The run has not ended (spec/70_reset_and_hazards.md R249). -/
abbrev State.isRunning (s : State) : Prop := s.status = .running

/-- A safe step: it leaves the machine running, so it raised no fault (spec/60_exceptions.md R205). -/
def safeStep (s : State) : Prop := ∃ t, step s = .next t ∧ t.isRunning

/-! ## Words, written as the numbers of the spec's encodings (spec/30_encoding.md R72) -/

/-- The word `op:4` `nnn:12`. -/
def wordA (op : Nat) (nnn : Addr) : Word := BitVec.ofNat 16 (op * 4096 + nnn.toNat)

/-- The word `op:4` `x:4` `kk:8`. -/
def wordXK (op : Nat) (x : Reg) (kk : Nat) : Word := BitVec.ofNat 16 (op * 4096 + x.val * 256 + kk)

/-- The word `op:4` `x:4` `y:4` `n:4`. -/
def wordXYN (op : Nat) (x y : Reg) (n : Nat) : Word := BitVec.ofNat 16 (op * 4096 + x.val * 256 + y.val * 16 + n)

/-- The illegal encodings, as spec/30_encoding.md R81 lists them. -/
abbrev illegalWord (w : Nat) : Prop :=
  (w / 4096 = 0x0 ∧ w % 4096 ≠ 0x0E0 ∧ w % 4096 ≠ 0x0EE) ∨
  (w / 4096 = 0x5 ∧ w % 16 ≠ 0) ∨
  (w / 4096 = 0x8 ∧ w % 16 ∈ [0x8, 0x9, 0xA, 0xB, 0xC, 0xD, 0xF]) ∨
  (w / 4096 = 0x9 ∧ w % 16 ≠ 0) ∨
  (w / 4096 = 0xE ∧ w % 256 ∉ [0x9E, 0xA1]) ∨
  (w / 4096 = 0xF ∧ w % 256 ∉ [0x07, 0x0A, 0x15, 0x18, 0x1E, 0x29, 0x33, 0x55, 0x65])

/-! ## What an instruction may write (the table of spec/10_state.md R22) -/

/-- Whether the table lists general register `k` among what the instruction writes. -/
def writesReg (i : Instr) (k : Reg) : Bool :=
  match i with
  | .ldK x _ | .addK x _ | .ldV x _ | .orV x _ | .andV x _ | .xorV x _ | .rnd x _ | .ldVxDt x | .ldVxK x => k == x
  | .addV x _ | .sub x _ | .shr x _ | .subn x _ | .shl x _ => k == x || k == flagReg
  | .drw _ _ _ => k == flagReg
  | .ldVxMem x => decide (k ≤ x)
  | .cls | .ret | .jp _ | .call _ | .seK _ _ | .sneK _ _ | .seV _ _ | .sneV _ _ | .ldI _ | .jpV0 _ | .skp _ | .sknp _
  | .ldDtVx _ | .ldStVx _ | .addI _ | .ldF _ | .ldB _ | .ldMemVx _ => false

/-- `I` is written by `LD I`, `ADD I` and `LD F` (spec/10_state.md R25). -/
abbrev writesI (i : Instr) : Prop := (∃ nnn, i = .ldI nnn) ∨ (∃ x, i = .addI x) ∨ ∃ x, i = .ldF x

/-- `SP` is written by `CALL` and `RET` (spec/10_state.md R22). -/
abbrev writesSp (i : Instr) : Prop := (∃ nnn, i = .call nnn) ∨ i = .ret

/-- The framebuffer is written by `CLS` and `DRW` (spec/20_memory.md R50). -/
abbrev writesFb (i : Instr) : Prop := i = .cls ∨ ∃ x y n, i = .drw x y n

/-- The keyboard is queried by `SKP`, `SKNP` and `LD Vx,K` (spec/60_exceptions.md R221). -/
abbrev queriesKeys (i : Instr) : Prop := (∃ x, i = .skp x) ∨ (∃ x, i = .sknp x) ∨ ∃ x, i = .ldVxK x

/-- The address and the length of the run of bytes an instruction stores: `LD B` three at `I`, `LD [I],Vx` one for each of
`V0 .. Vx` at `I` (spec/20_memory.md R53). -/
def storedRun (i : Instr) (s : State) : Nat × Nat :=
  match i with
  | .ldB _ => (s.i.toNat, 3)
  | .ldMemVx x => (s.i.toNat, x.val + 1)
  | .cls | .ret | .jp _ | .call _ | .seK _ _ | .sneK _ _ | .seV _ _ | .ldK _ _ | .addK _ _ | .ldV _ _ | .orV _ _
  | .andV _ _ | .xorV _ _ | .addV _ _ | .sub _ _ | .shr _ _ | .subn _ _ | .shl _ _ | .sneV _ _ | .ldI _ | .jpV0 _
  | .rnd _ _ | .drw _ _ _ | .skp _ | .sknp _ | .ldVxDt _ | .ldVxK _ | .ldDtVx _ | .ldStVx _ | .addI _ | .ldF _
  | .ldVxMem _ => (0, 0)

/-- Only the general registers differ, and `PC` is 2 past the instruction. -/
abbrev onlyRegs (s t : State) : Prop := t = { s with v := t.v, pc := s.pc + 2 }

/-- Only `V[x]` differs among the general registers. -/
abbrev onlyReg (x : Reg) (s t : State) : Prop := onlyRegs s t ∧ ∀ k, k ≠ x → t.reg k = s.reg k

/-- Only `V[x]` and `VF` differ among the general registers. -/
abbrev onlyRegAndFlag (x : Reg) (s t : State) : Prop := onlyRegs s t ∧ ∀ k, k ≠ x → k ≠ flagReg → t.reg k = s.reg k

/-- The pixels a sprite of `n` rows covers at `(cx, cy)`: column `c` of row `r`, bit 7 leftmost, wrapping modulo 64 and 32
(spec/43_display.md R171). -/
def spriteCovers (cx cy : Byte) (row : Nat → Byte) (n : Nat) (px : Fin 64) (py : Fin 32) : Prop :=
  ∃ r c, r < n ∧ c < 8 ∧ (row r).getLsbD (7 - c) = true ∧
    px.val = (cx.toNat + c) % 64 ∧ py.val = (cy.toNat + r) % 32

/-- A change of the next state, where there is one. -/
def mapNext (f : State → State) : Result → Result
  | .next t => .next (f t)
  | .fault r => .fault r
  | .refused r => .refused r

end Sys2Proof.Machine
end

