-- ==== Sys2Proof/Certificates/Slice0/Obligations.lean ====
section
/-! DEFINITION. The statements for the provers. Where a statement rests on a decision or an inference that the spec marks
as its own, its docstring names it; `memGet` is the read of one byte, `State.reg` the read of one general register. -/

open Sys2Proof Sys2Proof.Machine

/-! ## Encoding -/

/-- Decoding an encoded instruction gives it back, every operand at every value, alone and in front of other bytes. -/
def Obligations.DecodeOfEncode : Prop :=
  ∀ (i : Instr) (rest : List Byte),
    decodeWord (encodeWord i) = some i ∧ decode (encode i ++ rest) = .ok (i, rest)

/-- Each word has one meaning, and no bit of it is dropped: the instruction decoded from a word encodes to that word. -/
def Obligations.EncodeOfDecode : Prop :=
  ∀ (w : Word) (i : Instr), decodeWord w = some i → encodeWord i = w

/-- The decoder rejects exactly the words R81 lists (R81 marks the list as derived from R74). -/
def Obligations.IllegalWordsAreThoseListed : Prop :=
  ∀ w : Word, decodeWord w = none ↔ illegalWord w.toNat

/-- Every encoding of R75 to R80, as a number, decodes to its instruction (the spec
marks the table as general knowledge; decision D4 for the rest of family 0). -/
def Obligations.EveryEncodingDecodes : Prop :=
  ∀ (x y : Reg) (n : Nibble) (kk : Byte) (nnn : Addr),
    decodeWord 0x00E0 = some .cls ∧ decodeWord 0x00EE = some .ret ∧
    decodeWord (wordA 0x1 nnn) = some (.jp nnn) ∧ decodeWord (wordA 0x2 nnn) = some (.call nnn) ∧
    decodeWord (wordXK 0x3 x kk.toNat) = some (.seK x kk) ∧ decodeWord (wordXK 0x4 x kk.toNat) = some (.sneK x kk) ∧
    decodeWord (wordXYN 0x5 x y 0x0) = some (.seV x y) ∧
    decodeWord (wordXK 0x6 x kk.toNat) = some (.ldK x kk) ∧ decodeWord (wordXK 0x7 x kk.toNat) = some (.addK x kk) ∧
    decodeWord (wordXYN 0x8 x y 0x0) = some (.ldV x y) ∧ decodeWord (wordXYN 0x8 x y 0x1) = some (.orV x y) ∧
    decodeWord (wordXYN 0x8 x y 0x2) = some (.andV x y) ∧ decodeWord (wordXYN 0x8 x y 0x3) = some (.xorV x y) ∧
    decodeWord (wordXYN 0x8 x y 0x4) = some (.addV x y) ∧ decodeWord (wordXYN 0x8 x y 0x5) = some (.sub x y) ∧
    decodeWord (wordXYN 0x8 x y 0x6) = some (.shr x y) ∧ decodeWord (wordXYN 0x8 x y 0x7) = some (.subn x y) ∧
    decodeWord (wordXYN 0x8 x y 0xE) = some (.shl x y) ∧ decodeWord (wordXYN 0x9 x y 0x0) = some (.sneV x y) ∧
    decodeWord (wordA 0xA nnn) = some (.ldI nnn) ∧ decodeWord (wordA 0xB nnn) = some (.jpV0 nnn) ∧
    decodeWord (wordXK 0xC x kk.toNat) = some (.rnd x kk) ∧ decodeWord (wordXYN 0xD x y n.toNat) = some (.drw x y n) ∧
    decodeWord (wordXK 0xE x 0x9E) = some (.skp x) ∧ decodeWord (wordXK 0xE x 0xA1) = some (.sknp x) ∧
    decodeWord (wordXK 0xF x 0x07) = some (.ldVxDt x) ∧ decodeWord (wordXK 0xF x 0x0A) = some (.ldVxK x) ∧
    decodeWord (wordXK 0xF x 0x15) = some (.ldDtVx x) ∧ decodeWord (wordXK 0xF x 0x18) = some (.ldStVx x) ∧
    decodeWord (wordXK 0xF x 0x1E) = some (.addI x) ∧ decodeWord (wordXK 0xF x 0x29) = some (.ldF x) ∧
    decodeWord (wordXK 0xF x 0x33) = some (.ldB x) ∧ decodeWord (wordXK 0xF x 0x55) = some (.ldMemVx x) ∧
    decodeWord (wordXK 0xF x 0x65) = some (.ldVxMem x)

/-- Words of the spec's examples decode to what they stand for (the table is general knowledge, as R75 to R80 mark). -/
def Obligations.ExampleWordsDecode : Prop :=
  decodeWord 0x1ABC = some (.jp 0xABC) ∧ decodeWord 0x8124 = some (.addV 1 2) ∧
  decodeWord 0x840E = some (.shl 4 0) ∧ decodeWord 0xA300 = some (.ldI 0x300) ∧
  decodeWord 0xDBC5 = some (.drw 0xB 0xC 5) ∧ decodeWord 0xF20A = some (.ldVxK 2) ∧
  decodeWord 0x5121 = none ∧ decodeWord 0x0123 = none

/-! ## The engine step -/

/-- When the machine runs, the CPU moves next and the two bytes at `PC` decode to an instruction, the step is that
instruction's `exec` at the state with the move taken, and an instruction's fault is taken in that state. Taking a move
changes the schedule alone (log entry 3). The fault clause is decision D7's. -/
def Obligations.StepRunsDecodedInstruction : Prop :=
  ∀ (s : State) (i : Instr), s.isRunning → s.nextMove = .cpu → s.pc.toNat + 1 < 4096 →
    decode [memGet s.mem s.pc.toNat, memGet s.mem (s.pc.toNat + 1)] = .ok (i, []) →
    (∀ t, exec i s.tookMove = .next t → step s = .next t) ∧
    (∀ f, exec i s.tookMove = .fault f → step s = .next { s.tookMove with status := .faulted f }) ∧
    s.tookMove = { s with moves := s.tookMove.moves, rounds := s.tookMove.rounds } ∧
    ∀ ms, s.moves = .cpu :: ms → s.tookMove = { s with moves := ms }

/-- A word of R81's list at `PC` ends the run with `IllegalInstruction`, which carries the raw word and the `PC`. -/
def Obligations.IllegalWordFaults : Prop :=
  ∀ s : State, s.isRunning → s.nextMove = .cpu → s.pc.toNat + 1 < 4096 →
    illegalWord ((memGet s.mem s.pc.toNat).toNat * 256 + (memGet s.mem (s.pc.toNat + 1)).toNat) →
    step s = .next { s.tookMove with
      status := .faulted (.illegalInstruction s.pc
        (BitVec.ofNat 16 ((memGet s.mem s.pc.toNat).toNat * 256 + (memGet s.mem (s.pc.toNat + 1)).toNat))) }

/-- A CPU step that raises a fault commits nothing else: registers, memory, framebuffer and events are those before the
step, the record names the `PC` of the step, and the host receives it (decision D7; log entry 5 for the outcome). -/
def Obligations.FaultCommitsNothing : Prop :=
  ∀ (s t : State) (f : Fault), s.isRunning → s.nextMove = .cpu → step s = .next t → t.status = .faulted f →
    t = { s.tookMove with status := .faulted f } ∧ f.pc = some s.pc ∧ step t = .fault f

/-- No step of any agent is enabled in `Stopped` or `Faulted`, so a `Faulted` status is never cleared. -/
def Obligations.NoStepUnlessRunning : Prop :=
  ∀ s t : State, (s.status = .stopped ∨ ∃ f, s.status = .faulted f) → step s ≠ .next t

/-- A step of the CPU or of a timer unit appends at most one event to the history. -/
def Obligations.OneEventPerStep : Prop :=
  ∀ s t : State, (s.nextMove = .cpu ∨ ∃ u, s.nextMove = .tick u) → step s = .next t →
    ∃ es : List Event, es.length ≤ 1 ∧ t.events = s.events ++ es

/-! ## The invariant and reset -/

/-- Every step keeps the invariant: memory canonical, `SP` in `-1 .. 15`, `PC` at most `0x1003`, return addresses inside
memory, accumulators below the period, faults precise. -/
def Obligations.EveryStepKeepsInv : Prop :=
  ∀ s t : State, s.Inv → step s = .next t → t.Inv

/-- The reset state meets the invariant. -/
def Obligations.ResetMeetsInv : Prop := State.reset.Inv

/-- Construction with any program that fits leaves the values of R36: registers, `PC` and `SP`, an empty stack, a clear
framebuffer, the font, the program's bytes, `MEM_INIT` elsewhere. The stack, accumulator and `MEM_INIT` rows are
decisions D25, D22 and D23; the load address and the font are decisions D2 and D3; the empty event history is the model's
choice (log entry 6). -/
def Obligations.ConstructionGivesResetValues : Prop :=
  ∀ program : List Byte, program.length ≤ 3584 → ∃ s, construct program = .ok s ∧ s.Inv ∧
    (∀ k, s.reg k = 0) ∧ s.i = 0 ∧ s.pc = 0x200 ∧ s.sp.toInt = -1 ∧ s.dt = 0 ∧ s.st = 0 ∧
    (∀ k : Fin 16, s.stack[k] = 0) ∧ (∀ x y, pixel s.fb x y = false) ∧
    s.accDt = 0 ∧ s.accSt = 0 ∧ s.accCpu = 0 ∧ s.isRunning ∧ s.events = [] ∧
    (∀ a, a < 80 → some (memGet s.mem a) = Params.fontData[a]?) ∧
    (∀ k, k < program.length → some (memGet s.mem (0x200 + k)) = program[k]?) ∧
    (∀ a, 80 ≤ a → (a < 0x200 ∨ 0x200 + program.length ≤ a) → memGet s.mem a = Config.memInit a)

/-- A program longer than `MEM_SIZE - LOAD_ADDR` fails construction with a size mismatch, and one of at most that size
succeeds (the load address is decision D2). -/
def Obligations.OversizedProgramFailsConstruction : Prop :=
  ∀ program : List Byte,
    (3584 < program.length → construct program = .error (.sizeMismatch program.length)) ∧
    (program.length ≤ 3584 → ∃ s, construct program = .ok s)

/-! ## Frames -/

/-- Every general register the table of R22 does not list as written keeps its value, for every instruction. -/
def Obligations.GeneralRegisterFrame : Prop :=
  ∀ (i : Instr) (s t : State) (k : Reg), exec i s = .next t → writesReg i k = false → t.reg k = s.reg k

/-- `I` changes only by `LD I`, `ADD I`, `LD F` (decision D16); `SP` only by `CALL` and `RET`; a stack slot only by `CALL`,
and only the one above the old `SP`; `DT` and `ST` only by `LD DT` and `LD ST`. -/
def Obligations.SpecialRegisterFrame : Prop :=
  ∀ (i : Instr) (s t : State), exec i s = .next t →
    (¬ writesI i → t.i = s.i) ∧ (¬ writesSp i → t.sp = s.sp) ∧
    (∀ k : Fin 16, ((∀ nnn, i ≠ .call nnn) ∨ (k.val : Int) ≠ s.sp.toInt + 1) → t.stack[k] = s.stack[k]) ∧
    ((∀ x, i ≠ .ldDtVx x) → t.dt = s.dt) ∧ ((∀ x, i ≠ .ldStVx x) → t.st = s.st)

/-- Every byte of memory outside the run an instruction stores reads as before; all of memory for an instruction that
stores nothing. -/
def Obligations.MemoryFrame : Prop :=
  ∀ (i : Instr) (s t : State) (a : Nat), exec i s = .next t →
    (a < (storedRun i s).1 ∨ (storedRun i s).1 + (storedRun i s).2 ≤ a) → memGet t.mem a = memGet s.mem a

/-- The framebuffer changes only by `CLS` and `DRW`; events come only from them and from `LD ST,Vx`; only the keypad
instructions take a keyboard input, only `RND` takes a random one, and only these draw a free value (log entry 4); no
instruction touches the accumulators, the run status or the schedule (log entry 3). -/
def Obligations.DisplayAndHiddenFrame : Prop :=
  ∀ (i : Instr) (s t : State), exec i s = .next t →
    (¬ writesFb i → t.fb = s.fb) ∧ (¬ writesFb i → (∀ x, i ≠ .ldStVx x) → t.events = s.events) ∧
    (¬ queriesKeys i → t.keyQueue = s.keyQueue) ∧ ((∀ x kk, i ≠ .rnd x kk) → t.byteQueue = s.byteQueue) ∧
    (¬ queriesKeys i → (∀ x kk, i ≠ .rnd x kk) → t.draws = s.draws) ∧
    t.accDt = s.accDt ∧ t.accSt = s.accSt ∧ t.accCpu = s.accCpu ∧ t.status = s.status ∧
    t.moves = s.moves ∧ t.rounds = s.rounds

/-- No instruction reads an accumulator either: with other accumulators every instruction answers the same, with those
accumulators in its next state. -/
def Obligations.AccumulatorsAreInvisible : Prop :=
  ∀ (i : Instr) (s : State) (a b c : Nat),
    exec i { s with accDt := a, accSt := b, accCpu := c } =
      mapNext (fun t => { t with accDt := a, accSt := b, accCpu := c }) (exec i s)

/-- No instruction reads `ST`: with another `ST` every instruction answers the same, but for the `ST` of its next state,
which `LD ST,Vx` overwrites and every other instruction keeps. -/
def Obligations.SoundTimerIsNotRead : Prop :=
  ∀ (i : Instr) (s : State) (b : Byte),
    ((∀ x, i ≠ .ldStVx x) → exec i { s with st := b } = mapNext (fun t => { t with st := b }) (exec i s)) ∧
    (∀ x, exec (.ldStVx x) { s with st := b } = exec (.ldStVx x) s)

/-! ## Control transfer -/

/-- `JP nnn` goes to its 12-bit address and changes nothing else (R76 marks its family number as general knowledge). -/
def Obligations.JumpGoesToAddress : Prop :=
  ∀ (nnn : Addr) (s : State), decodeWord (wordA 0x1 nnn) = some (.jp nnn) ∧
    ∃ t, exec (.jp nnn) s = .next t ∧ t.pc.toNat = nnn.toNat ∧ t = { s with pc := t.pc }

/-- `JP V0,nnn` goes to `(nnn + V0) mod 4096` and changes nothing else (R76 marks its family number as general
knowledge). -/
def Obligations.OffsetJumpWraps : Prop :=
  ∀ (nnn : Addr) (s : State), decodeWord (wordA 0xB nnn) = some (.jpV0 nnn) ∧
    ∃ t, exec (.jpV0 nnn) s = .next t ∧ t.pc.toNat = (nnn.toNat + (s.reg 0).toNat) % 4096 ∧ t = { s with pc := t.pc }

/-- `CALL nnn` with room on the stack raises `SP` by one, puts its own address in the slot the new `SP` names, and jumps
(decision D9 for the order). -/
def Obligations.CallPushesItsAddress : Prop :=
  ∀ (nnn : Addr) (s : State), s.spLegal → s.sp.toInt < 15 →
    ∃ t, exec (.call nnn) s = .next t ∧ t.sp.toInt = s.sp.toInt + 1 ∧ t.pc.toNat = nnn.toNat ∧
      (∀ k : Fin 16, t.stack[k] = if (k.val : Int) = s.sp.toInt + 1 then s.pc else s.stack[k]) ∧
      t = { s with sp := t.sp, pc := t.pc, stack := t.stack }

/-- `RET` with a return address on the stack goes to the instruction after the `CALL` whose address the top slot holds, and
lowers `SP` by one (decision D8, conflict C1). -/
def Obligations.ReturnGoesPastTheCall : Prop :=
  ∀ (s : State) (k : Fin 16), s.sp.toInt = k.val →
    ∃ t, exec .ret s = .next t ∧ t.pc = s.stack[k] + 2 ∧ t.sp.toInt = s.sp.toInt - 1 ∧
      t = { s with pc := t.pc, sp := t.sp }

/-- After a `CALL`, whatever runs in between that leaves `SP` and the stack as the `CALL` left them, `RET` gives the `PC`
directly after the `CALL` and the `SP` before it. -/
def Obligations.ReturnUndoesCall : Prop :=
  ∀ (nnn : Addr) (s t u : State), exec (.call nnn) s = .next t → u.sp = t.sp → u.stack = t.stack →
    ∃ w, exec .ret u = .next w ∧ w.pc = s.pc + 2 ∧ w.sp = s.sp

/-- The register skips leave `PC` 4 past the instruction when their condition holds and 2 past it otherwise, and change
nothing else (R76 and R77 mark their family numbers as general knowledge). -/
def Obligations.RegisterSkips : Prop :=
  ∀ (x y : Reg) (kk : Byte) (s : State),
    decodeWord (wordXK 0x3 x kk.toNat) = some (.seK x kk) ∧ decodeWord (wordXK 0x4 x kk.toNat) = some (.sneK x kk) ∧
    decodeWord (wordXYN 0x5 x y 0x0) = some (.seV x y) ∧ decodeWord (wordXYN 0x9 x y 0x0) = some (.sneV x y) ∧
    exec (.seK x kk) s = .next { s with pc := if s.reg x = kk then s.pc + 4 else s.pc + 2 } ∧
    exec (.sneK x kk) s = .next { s with pc := if s.reg x = kk then s.pc + 2 else s.pc + 4 } ∧
    exec (.seV x y) s = .next { s with pc := if s.reg x = s.reg y then s.pc + 4 else s.pc + 2 } ∧
    exec (.sneV x y) s = .next { s with pc := if s.reg x = s.reg y then s.pc + 2 else s.pc + 4 }

/-- The out-of-bounds conditions: a fetch, a read or a write that reaches past the end of memory, `CALL` with `SP = 15` and
`RET` with `SP = -1` raise the fault with the first address of the access, or the `PC` for the stack. -/
def Obligations.OutOfBoundsConditions : Prop :=
  ∀ s : State,
    (s.isRunning → s.nextMove = .cpu → 4096 ≤ s.pc.toNat + 1 →
      step s = .next { s.tookMove with status := .faulted (.outOfBounds .fetch s.pc s.pc) }) ∧
    (∀ x y n, n ≠ 0 → 4096 ≤ s.i.toNat + n.toNat - 1 → exec (.drw x y n) s = .fault (.outOfBounds .read s.pc s.i)) ∧
    (∀ x, 4096 ≤ s.i.toNat + x.val → exec (.ldVxMem x) s = .fault (.outOfBounds .read s.pc s.i)) ∧
    (∀ x, 4096 ≤ s.i.toNat + 2 → exec (.ldB x) s = .fault (.outOfBounds .write s.pc s.i)) ∧
    (∀ x, 4096 ≤ s.i.toNat + x.val → exec (.ldMemVx x) s = .fault (.outOfBounds .write s.pc s.i)) ∧
    (∀ nnn, s.sp.toInt = 15 → exec (.call nnn) s = .fault (.outOfBounds .stackOverflow s.pc s.pc)) ∧
    (s.sp.toInt = -1 → exec .ret s = .fault (.outOfBounds .stackUnderflow s.pc s.pc))

/-- An operand outside its stated domain raises `Unmodelled` with the offending value: a font digit or a key index above
15, a sprite height of 0 wherever `I` points (decisions D15, D18, D19; R206 puts the height before the bounds). -/
def Obligations.OperandDomainFaults : Prop :=
  ∀ (s : State) (x y : Reg),
    (15 < (s.reg x).toNat →
      exec (.ldF x) s = .fault (.unmodelled .fontDigit s.pc (BitVec.ofNat 16 (s.reg x).toNat)) ∧
      exec (.skp x) s = .fault (.unmodelled .keyIndex s.pc (BitVec.ofNat 16 (s.reg x).toNat)) ∧
      exec (.sknp x) s = .fault (.unmodelled .keyIndex s.pc (BitVec.ofNat 16 (s.reg x).toNat))) ∧
    exec (.drw x y 0) s = .fault (.unmodelled .spriteHeightZero s.pc (wordXYN 0xD x y 0))

/-! ## ALU and flags -/

/-- `LD Vx,kk` writes `kk`, `LD Vx,Vy` copies `V[y]`; no other register and no flag changes (R125, R127: the operations
are general knowledge). -/
def Obligations.RegisterLoads : Prop :=
  ∀ (x y : Reg) (kk : Byte) (s : State),
    decodeWord (wordXK 0x6 x kk.toNat) = some (.ldK x kk) ∧ decodeWord (wordXYN 0x8 x y 0x0) = some (.ldV x y) ∧
    (∃ t, exec (.ldK x kk) s = .next t ∧ t.reg x = kk ∧ onlyReg x s t) ∧
    (∃ t, exec (.ldV x y) s = .next t ∧ t.reg x = s.reg y ∧ onlyReg x s t)

/-- `ADD Vx,kk` adds modulo 256 and writes no carry: `VF` is unchanged unless it is `Vx` (decision D10). -/
def Obligations.AddImmediateWritesNoFlag : Prop :=
  ∀ (x : Reg) (kk : Byte) (s : State),
    ∃ t, exec (.addK x kk) s = .next t ∧ (t.reg x).toNat = ((s.reg x).toNat + kk.toNat) % 256 ∧ onlyReg x s t

/-- `OR`, `AND` and `XOR` act on each bit and write no flag: `VF` is unchanged unless it is `Vx` (decision D11). -/
def Obligations.LogicIsBitwise : Prop :=
  ∀ (x y : Reg) (s : State),
    (∃ t, exec (.orV x y) s = .next t ∧ onlyReg x s t ∧
      ∀ k, (t.reg x).getLsbD k = ((s.reg x).getLsbD k || (s.reg y).getLsbD k)) ∧
    (∃ t, exec (.andV x y) s = .next t ∧ onlyReg x s t ∧
      ∀ k, (t.reg x).getLsbD k = ((s.reg x).getLsbD k && (s.reg y).getLsbD k)) ∧
    (∃ t, exec (.xorV x y) s = .next t ∧ onlyReg x s t ∧
      ∀ k, (t.reg x).getLsbD k = ((s.reg x).getLsbD k ^^ (s.reg y).getLsbD k))

/-- `ADD Vx,Vy`: the sum modulo 256 in `Vx` and the carry in `VF`; when `Vx` is `VF` the carry stands (decision D12). -/
def Obligations.AddWritesSumThenCarry : Prop :=
  ∀ (x y : Reg) (s : State), ∃ t, exec (.addV x y) s = .next t ∧ onlyRegAndFlag x s t ∧
    (x ≠ flagReg → (t.reg x).toNat = ((s.reg x).toNat + (s.reg y).toNat) % 256) ∧
    (t.reg flagReg).toNat = (if 255 < (s.reg x).toNat + (s.reg y).toNat then 1 else 0)

/-- `SUB` and `SUBN`: the difference modulo 256 in `Vx`, and in `VF` 1 exactly when the minuend is above the subtrahend, so
0 at equality (conflict C2); when `Vx` is `VF` the flag stands (decision D12). -/
def Obligations.SubtractWritesDifferenceThenFlag : Prop :=
  ∀ (x y : Reg) (s : State),
    (∃ t, exec (.sub x y) s = .next t ∧ onlyRegAndFlag x s t ∧
      (x ≠ flagReg → (t.reg x).toNat = ((s.reg x).toNat + 256 - (s.reg y).toNat) % 256) ∧
      (t.reg flagReg).toNat = (if (s.reg y).toNat < (s.reg x).toNat then 1 else 0)) ∧
    (∃ t, exec (.subn x y) s = .next t ∧ onlyRegAndFlag x s t ∧
      (x ≠ flagReg → (t.reg x).toNat = ((s.reg y).toNat + 256 - (s.reg x).toNat) % 256) ∧
      (t.reg flagReg).toNat = (if (s.reg x).toNat < (s.reg y).toNat then 1 else 0))

/-- `SHR Vx`: half of `Vx`, and the bit shifted out in `VF`; when `Vx` is `VF` it ends 0; `y` never matters
(decision D13). -/
def Obligations.ShiftRightWritesFlagFirst : Prop :=
  ∀ (x y : Reg) (s : State), ∃ t, exec (.shr x y) s = .next t ∧ onlyRegAndFlag x s t ∧
    (x ≠ flagReg → (t.reg x).toNat = (s.reg x).toNat / 2 ∧ (t.reg flagReg).toNat = (s.reg x).toNat % 2) ∧
    (x = flagReg → t.reg flagReg = 0) ∧ ∀ z, exec (.shr x z) s = exec (.shr x y) s

/-- `SHL Vx`: twice `Vx` modulo 256, and the bit shifted out in `VF`; when `Vx` is `VF` it ends 2 if its old bit 7 was set
and 0 otherwise; `y` never matters (decision D13). -/
def Obligations.ShiftLeftWritesFlagFirst : Prop :=
  ∀ (x y : Reg) (s : State), ∃ t, exec (.shl x y) s = .next t ∧ onlyRegAndFlag x s t ∧
    (x ≠ flagReg → (t.reg x).toNat = (s.reg x).toNat * 2 % 256 ∧ (t.reg flagReg).toNat = (s.reg x).toNat / 128) ∧
    (x = flagReg → (t.reg flagReg).toNat = if 128 ≤ (s.reg x).toNat then 2 else 0) ∧
    ∀ z, exec (.shl x z) s = exec (.shl x y) s

/-- Exactly `ADD Vx,Vy`, `SUB`, `SUBN`, `SHR`, `SHL` and `DRW` write `VF` as a flag, with the values of R123's table; every
other instruction changes it only as its named destination or as one of the registers it loads. A shift of `VF` itself
changes it again after the flag write, so it is left to the shifts' own statements. -/
def Obligations.FlagWritersAndValues : Prop :=
  ∀ (i : Instr) (s t : State), exec i s = .next t →
    (∀ x y, i = .addV x y → t.reg flagReg = if 255 < (s.reg x).toNat + (s.reg y).toNat then 1 else 0) ∧
    (∀ x y, i = .sub x y → t.reg flagReg = if (s.reg y).toNat < (s.reg x).toNat then 1 else 0) ∧
    (∀ x y, i = .subn x y → t.reg flagReg = if (s.reg x).toNat < (s.reg y).toNat then 1 else 0) ∧
    (∀ x y, i = .shr x y → x ≠ flagReg → t.reg flagReg = if (s.reg x).getLsbD 0 then 1 else 0) ∧
    (∀ x y, i = .shl x y → x ≠ flagReg → t.reg flagReg = if (s.reg x).getLsbD 7 then 1 else 0) ∧
    (∀ x y n, i = .drw x y n →
      (t.reg flagReg = 0 ∨ t.reg flagReg = 1) ∧
      (t.reg flagReg = 1 ↔ ∃ px py, pixel s.fb px py = true ∧ pixel t.fb px py = false)) ∧
    ((∀ x y n, i ≠ .addV x y ∧ i ≠ .sub x y ∧ i ≠ .subn x y ∧ i ≠ .shr x y ∧ i ≠ .shl x y ∧ i ≠ .drw x y n) →
      writesReg i flagReg = false → t.reg flagReg = s.reg flagReg)

/-- `RND Vx,kk` writes the step's random byte under the mask: the injected byte when one is lined up, else a free value,
of which nothing is known (decision D20, log entry 4). -/
def Obligations.RandomIsMasked : Prop :=
  ∀ (x : Reg) (kk : Byte) (s : State), ∃ t, exec (.rnd x kk) s = .next t ∧
    (∀ b q, s.byteQueue = b :: q → t.reg x = b &&& kk ∧ t.byteQueue = q ∧ t.draws = s.draws) ∧
    (s.byteQueue = [] → t.reg x = Config.freeByte s.draws &&& kk ∧ t.byteQueue = [] ∧ t.draws = s.draws + 1) ∧
    (kk = 0 → t.reg x = 0) ∧ (∀ k, k ≠ x → t.reg k = s.reg k) ∧
    t = { s with v := t.v, pc := s.pc + 2, byteQueue := t.byteQueue, draws := t.draws }

/-! ## Index register and memory transfer -/

/-- `LD I,nnn` writes the zero-extended address to `I` (R150: operation and encoding are general knowledge). -/
def Obligations.LoadIndex : Prop :=
  ∀ (nnn : Addr) (s : State), decodeWord (wordA 0xA nnn) = some (.ldI nnn) ∧
    ∃ t, exec (.ldI nnn) s = .next t ∧ t.i.toNat = nnn.toNat ∧ t = { s with i := t.i, pc := s.pc + 2 }

/-- `ADD I,Vx` adds modulo 2^16 and writes no flag (decision D14). -/
def Obligations.AddToIndexWraps : Prop :=
  ∀ (x : Reg) (s : State), ∃ t, exec (.addI x) s = .next t ∧
    t.i.toNat = (s.i.toNat + (s.reg x).toNat) % 65536 ∧ t = { s with i := t.i, pc := s.pc + 2 }

/-- `LD F,Vx` of a digit points `I` at its glyph, `5 * V[x]` (decisions D3, D15). -/
def Obligations.FontPointer : Prop :=
  ∀ (x : Reg) (s : State), (s.reg x).toNat ≤ 15 → ∃ t, exec (.ldF x) s = .next t ∧
    t.i.toNat = 5 * (s.reg x).toNat ∧ t = { s with i := t.i, pc := s.pc + 2 }

/-- `LD B,Vx` stores hundreds, tens and ones at `I`, `I+1`, `I+2` and changes nothing else (decision D17). -/
def Obligations.BcdStoresThreeDigits : Prop :=
  ∀ (x : Reg) (s : State), Memory.wf s.mem → s.i.toNat + 2 < 4096 → ∃ t, exec (.ldB x) s = .next t ∧
    (memGet t.mem s.i.toNat).toNat = (s.reg x).toNat / 100 ∧
    (memGet t.mem (s.i.toNat + 1)).toNat = (s.reg x).toNat / 10 % 10 ∧
    (memGet t.mem (s.i.toNat + 2)).toNat = (s.reg x).toNat % 10 ∧
    (∀ a, a < s.i.toNat ∨ s.i.toNat + 2 < a → memGet t.mem a = memGet s.mem a) ∧
    t = { s with mem := t.mem, pc := s.pc + 2 }

/-- `LD [I],Vx` stores `V0 .. Vx` at `I .. I+x` and changes nothing else, `I` included (decision D16). -/
def Obligations.StoreRegisters : Prop :=
  ∀ (x : Reg) (s : State), Memory.wf s.mem → s.i.toNat + x.val < 4096 → ∃ t, exec (.ldMemVx x) s = .next t ∧
    (∀ k : Reg, k ≤ x → memGet t.mem (s.i.toNat + k.val) = s.reg k) ∧
    (∀ a, a < s.i.toNat ∨ s.i.toNat + x.val < a → memGet t.mem a = memGet s.mem a) ∧
    t = { s with mem := t.mem, pc := s.pc + 2 }

/-- `LD Vx,[I]` loads `V0 .. Vx` from `I .. I+x` and changes nothing else, the registers above `x` and `I` included
(decision D16). -/
def Obligations.LoadRegisters : Prop :=
  ∀ (x : Reg) (s : State), s.i.toNat + x.val < 4096 → ∃ t, exec (.ldVxMem x) s = .next t ∧
    (∀ k : Reg, t.reg k = if k ≤ x then memGet s.mem (s.i.toNat + k.val) else s.reg k) ∧ onlyRegs s t

/-- Registers stored by `LD [I],Vx` and loaded back by `LD Vx,[I]` from the same memory and address come back bit for bit,
whatever the registers held in between. -/
def Obligations.StoreThenLoadRoundTrip : Prop :=
  ∀ (x : Reg) (s t u : State), Memory.wf s.mem → exec (.ldMemVx x) s = .next t → u.mem = t.mem → u.i = t.i →
    ∃ w, exec (.ldVxMem x) u = .next w ∧ ∀ k : Reg, k ≤ x → w.reg k = s.reg k

/-- Bytes stored by `LD [I],Vx` are what a later fetch at their address reads, first byte high (R62, derived from R59). -/
def Obligations.StoredBytesAreFetched : Prop :=
  ∀ (x j k : Reg) (s t u : State), Memory.wf s.mem → exec (.ldMemVx x) s = .next t → k.val = j.val + 1 → k ≤ x →
    u.mem = t.mem → u.pc.toNat = s.i.toNat + j.val → fetch u = .ok (s.reg j ++ s.reg k)

/-! ## Framebuffer -/

/-- `CLS` clears every pixel, emits one frame with the cleared framebuffer, and changes nothing else (R170: the encoding is
general knowledge). -/
def Obligations.ClearScreen : Prop :=
  ∀ s : State, decodeWord 0x00E0 = some .cls ∧
    ∃ t, exec .cls s = .next t ∧ (∀ x y, pixel t.fb x y = false) ∧
      t = { s with fb := t.fb, events := s.events ++ [.displayFrame t.fb], pc := s.pc + 2 }

/-- `DRW Vx,Vy,n` toggles exactly the pixels the sprite covers, sets `VF` to 1 exactly when one of them was set, emits one
frame, and changes nothing else (the height 0 faults, decision D18). -/
def Obligations.DrawTogglesCoveredPixels : Prop :=
  ∀ (x y : Reg) (n : Nibble) (s : State), n ≠ 0 → s.i.toNat + n.toNat - 1 < 4096 →
    ∃ t, exec (.drw x y n) s = .next t ∧
      (∀ px py, pixel t.fb px py ≠ pixel s.fb px py ↔
        spriteCovers (s.reg x) (s.reg y) (fun r => memGet s.mem (s.i.toNat + r)) n.toNat px py) ∧
      (t.reg flagReg = 0 ∨ t.reg flagReg = 1) ∧
      (t.reg flagReg = 1 ↔ ∃ px py, pixel s.fb px py = true ∧
        spriteCovers (s.reg x) (s.reg y) (fun r => memGet s.mem (s.i.toNat + r)) n.toNat px py) ∧
      (∀ k, k ≠ flagReg → t.reg k = s.reg k) ∧
      t = { s with v := t.v, fb := t.fb, events := s.events ++ [.displayFrame t.fb], pc := s.pc + 2 }

/-- Drawing the same sprite twice at the same place restores the framebuffer; when the first draw met no set pixel and the
sprite covers some, the second draw's `VF` is 1 (log entry 12 on the second clause's premise). -/
def Obligations.DrawTwiceRestores : Prop :=
  ∀ (x y : Reg) (n : Nibble) (s t : State), x ≠ flagReg → y ≠ flagReg → exec (.drw x y n) s = .next t →
    ∃ w, exec (.drw x y n) t = .next w ∧ w.fb = s.fb ∧
      (t.reg flagReg = 0 →
        (∃ px py, spriteCovers (s.reg x) (s.reg y) (fun r => memGet s.mem (s.i.toNat + r)) n.toNat px py) →
        w.reg flagReg = 1)

/-! ## Keypad and timer registers -/

/-- `SKP` and `SKNP` on a key index skip on the state of that one key in one snapshot, and change nothing else of the block
(decision D19 for other indices). -/
def Obligations.KeySkips : Prop :=
  ∀ (x : Reg) (k : Fin 16) (s : State), (s.reg x).toNat = k.val →
    (∃ t, exec (.skp x) s = .next t ∧ t.pc = (if s.keys[k] = true then s.pc + 4 else s.pc + 2) ∧
      t = { s with pc := t.pc, keyQueue := s.keyQueue.tail, draws := t.draws }) ∧
    (∃ t, exec (.sknp x) s = .next t ∧ t.pc = (if s.keys[k] = true then s.pc + 2 else s.pc + 4) ∧
      t = { s with pc := t.pc, keyQueue := s.keyQueue.tail, draws := t.draws })

/-- `LD Vx,K` with a key pressed stores the lowest pressed index and advances; with none it leaves every register, `PC` and
memory unchanged, so that the same instruction is fetched again (R80 marks its encoding as general knowledge). -/
def Obligations.WaitForKey : Prop :=
  ∀ (x : Reg) (s : State), decodeWord (wordXK 0xF x 0x0A) = some (.ldVxK x) ∧
    ((∀ j : Fin 16, s.keys[j] = false) → ∃ t, exec (.ldVxK x) s = .next t ∧
      t = { s with keyQueue := s.keyQueue.tail, draws := t.draws }) ∧
    (∀ k : Fin 16, s.keys[k] = true → (∀ j : Fin 16, j < k → s.keys[j] = false) → ∃ t, exec (.ldVxK x) s = .next t ∧
      (t.reg x).toNat = k.val ∧ (∀ j, j ≠ x → t.reg j = s.reg j) ∧
      t = { s with v := t.v, pc := s.pc + 2, keyQueue := s.keyQueue.tail, draws := t.draws })

/-- A keyboard query takes a lined-up snapshot when there is one, and otherwise a free one, fresh at each query
(log entry 4). -/
def Obligations.KeySnapshotIsFree : Prop :=
  ∀ (s t : State) (i : Instr), queriesKeys i → exec i s = .next t →
    (∀ snap q, s.keyQueue = snap :: q → s.keys = snap ∧ t.keyQueue = q ∧ t.draws = s.draws) ∧
    (s.keyQueue = [] → s.keys = Config.freeKeys s.draws ∧ t.keyQueue = [] ∧ t.draws = s.draws + 1)

/-- `LD Vx,DT` reads the delay timer into `Vx` (R183: operation and encoding are general knowledge). -/
def Obligations.ReadDelayTimer : Prop :=
  ∀ (x : Reg) (s : State), decodeWord (wordXK 0xF x 0x07) = some (.ldVxDt x) ∧
    ∃ t, exec (.ldVxDt x) s = .next t ∧ t.reg x = s.dt ∧ onlyReg x s t

/-- `LD DT,Vx` writes `DT` and nothing else: no event, no accumulator (decision D22). -/
def Obligations.SetDelayTimer : Prop :=
  ∀ (x : Reg) (s : State), ∃ t, exec (.ldDtVx x) s = .next t ∧ t.dt = s.reg x ∧ t = { s with dt := t.dt, pc := s.pc + 2 }

/-- `LD ST,Vx` writes `ST` and emits one audio event, `AudioStart` for a nonzero value and `AudioStop` for zero, whatever
`ST` held (conflict C4; decision D22 for the accumulator). -/
def Obligations.SetSoundTimer : Prop :=
  ∀ (x : Reg) (s : State), ∃ t, exec (.ldStVx x) s = .next t ∧ t.st = s.reg x ∧
    t.events = s.events ++ [if s.reg x = 0 then .audioStop else .audioStart] ∧
    t = { s with st := t.st, events := t.events, pc := s.pc + 2 }

/-! ## Timer units and host -/

/-- A tick decrements the bound register by one if it is nonzero, leaves it at zero otherwise, emits `AudioStop` when it
takes the sound timer to 0, and changes nothing else. -/
def Obligations.TickDecrements : Prop :=
  ∀ s : State, s.isRunning →
    (s.nextMove = .tick .delay → ∃ t, step s = .next t ∧ t.dt.toNat = s.dt.toNat - 1 ∧
      t = { s.tookMove with dt := t.dt }) ∧
    (s.nextMove = .tick .sound → ∃ t, step s = .next t ∧ t.st.toNat = s.st.toNat - 1 ∧
      t.events = s.events ++ (if s.st ≠ 0 ∧ t.st = 0 then [.audioStop] else []) ∧
      t = { s.tookMove with st := t.st, events := t.events })

/-- `AudioStop` is emitted by the tick that takes `ST` from 1 to 0 and by no other tick; an update of several ticks takes
`ST` no lower than 0 and emits it once when it takes a nonzero `ST` to 0; the delay unit emits nothing. -/
def Obligations.SoundStopsOnceAtZero : Prop :=
  ∀ (s : State) (delta : Nat), s.isRunning →
    (s.nextMove = .tick .sound → ∃ t, step s = .next t ∧
      t.events = s.events ++ if s.st = 1 then [.audioStop] else []) ∧
    (s.nextMove = .update .sound delta → ∃ t, step s = .next t ∧
      t.st.toNat = s.st.toNat - (s.accSt + delta) / Params.timerPeriod ∧
      t.events = s.events ++
        if 0 < s.st.toNat ∧ s.st.toNat ≤ (s.accSt + delta) / Params.timerPeriod then [.audioStop] else []) ∧
    (s.nextMove = .tick .delay ∨ s.nextMove = .update .delay delta →
      ∃ t, step s = .next t ∧ t.events = s.events)

/-- A timer update adds the elapsed time, takes every whole period out of the accumulator, makes one tick for each, so that
the bound register falls by one for each and never below zero, and changes nothing else. -/
def Obligations.UpdateCountsWholePeriods : Prop :=
  ∀ (s : State) (delta : Nat), s.isRunning →
    (s.nextMove = .update .delay delta → ∃ t, step s = .next t ∧
      t.accDt = (s.accDt + delta) % Params.timerPeriod ∧
      t.dt.toNat = s.dt.toNat - (s.accDt + delta) / Params.timerPeriod ∧
      t = { s.tookMove with accDt := t.accDt, dt := t.dt }) ∧
    (s.nextMove = .update .sound delta → ∃ t, step s = .next t ∧
      t.accSt = (s.accSt + delta) % Params.timerPeriod ∧
      t.st.toNat = s.st.toNat - (s.accSt + delta) / Params.timerPeriod ∧
      t.events = s.events ++
        (if 0 < s.st.toNat ∧ s.st.toNat ≤ (s.accSt + delta) / Params.timerPeriod then [.audioStop] else []) ∧
      t = { s.tookMove with accSt := t.accSt, st := t.st, events := t.events })

/-- Each unit reads and writes only its own accumulator and its bound register; the CPU reads what a unit left in `DT`, and
a unit counts down what the CPU loaded into `DT` or `ST`. -/
def Obligations.TimerUnitsAreIndependent : Prop :=
  ∀ (u : TimerUnit) (delta : Nat) (s s' : State),
    (s.acc u = s'.acc u → s.timer u = s'.timer u →
      (timerUpdate u delta s).acc u = (timerUpdate u delta s').acc u ∧
      (timerUpdate u delta s).timer u = (timerUpdate u delta s').timer u ∧
      ∃ es, (timerUpdate u delta s).events = s.events ++ es ∧ (timerUpdate u delta s').events = s'.events ++ es) ∧
    timerUpdate u delta s =
      { (s.setAcc u ((timerUpdate u delta s).acc u)).setTimer u ((timerUpdate u delta s).timer u) with
        events := (timerUpdate u delta s).events } ∧
    ∀ x, (∃ t, exec (.ldVxDt x) (timerUpdate u delta s) = .next t ∧ t.reg x = (timerUpdate u delta s).dt) ∧
      (∃ t, exec (.ldDtVx x) s = .next t ∧ (timerUpdate .delay delta t).dt.toNat =
        (s.reg x).toNat - (s.accDt + delta) / Params.timerPeriod) ∧
      ∃ t, exec (.ldStVx x) s = .next t ∧ (timerUpdate .sound delta t).st.toNat =
        (s.reg x).toNat - (s.accSt + delta) / Params.timerPeriod

/-- The schedule. One iteration of the host's loop: a stop flag stops the run; otherwise both timers are updated, the CPU
accumulator grows, and one CPU step runs exactly when it has reached its period, which is then taken out of it (decision
D26 for the order of the checks and the updates). That the period is taken out also after a faulting CPU step is the
model's reading of R247 (log entry 13). The host's stop request as a move of its own leaves the run status `Stopped` and
nothing else changed (R227). In every infinite run each of the three agents moves again and again (weak fairness, R220,
decision D21; the rounds are log entry 3). -/
def Obligations.LoopIteration : Prop :=
  (∀ (s u : State) (delta : Nat) (stopFlag : Bool), s.isRunning → s.nextMove = .iteration delta stopFlag →
    u = { timerUpdate .sound delta (timerUpdate .delay delta s.tookMove) with accCpu := s.accCpu + delta } →
    (stopFlag = true → step s = .next { s.tookMove with status := .stopped }) ∧
    (stopFlag = false → s.accCpu + delta < Params.cpuTickPeriod → step s = .next u) ∧
    (stopFlag = false → Params.cpuTickPeriod ≤ s.accCpu + delta → ∀ t, cpuStep u = .next t →
      step s = .next { t with accCpu := s.accCpu + delta - Params.cpuTickPeriod })) ∧
  (∀ s : State, s.isRunning → s.nextMove = .stop →
    ∃ t, step s = .next t ∧ t = { s.tookMove with status := .stopped } ∧ ∀ u, step t ≠ .next u) ∧
  ∀ σ : Nat → State, (∀ n, step (σ n) = .next (σ (n + 1))) →
    ∀ (a : Config.Agent) (n : Nat), ∃ m, n ≤ m ∧ (σ m).nextMove = agentMove a

/-- The block never raises `ResourceFailure` itself; the host may inject it before any step, and the run then ends like any
fault. -/
def Obligations.ResourceFailureIsTheHosts : Prop :=
  (∀ (i : Instr) (s : State), exec i s ≠ .fault .resourceFailure ∧ fetchDecode s ≠ .error .resourceFailure) ∧
  ∀ s : State, s.isRunning → s.nextMove = .resourceFailure →
    ∃ t, step s = .next t ∧ t = { s.tookMove with status := .faulted .resourceFailure } ∧ ∀ u, step t ≠ .next u
end

