-- ==== Sys2Proof/Laws/Decode.lean ====
section
/-! SUPPORT. Fields and encoded words as numbers (spec/30_encoding.md R71, R72), so that facts about encodings are facts of
arithmetic. -/

namespace Sys2Proof

/-! ## Fields of a word -/

theorem fieldOp_eq (w : Word) : fieldOp w = w.toNat / 4096 := by
  have := w.isLt
  simp only [fieldOp, BitVec.extractLsb'_toNat, Nat.shiftRight_eq_div_pow]
  omega

theorem fieldX_val (w : Word) : (fieldX w).val = w.toNat / 256 % 16 := by
  show (w.extractLsb' 8 4).toNat = _
  simp only [BitVec.extractLsb'_toNat, Nat.shiftRight_eq_div_pow, Nat.reducePow]

theorem fieldY_val (w : Word) : (fieldY w).val = w.toNat / 16 % 16 := by
  show (w.extractLsb' 4 4).toNat = _
  simp only [BitVec.extractLsb'_toNat, Nat.shiftRight_eq_div_pow, Nat.reducePow]

theorem fieldN_toNat (w : Word) : (fieldN w).toNat = w.toNat % 16 := by
  simp only [fieldN, BitVec.extractLsb'_toNat, Nat.shiftRight_zero, Nat.reducePow]

theorem fieldKk_toNat (w : Word) : (fieldKk w).toNat = w.toNat % 256 := by
  simp only [fieldKk, BitVec.extractLsb'_toNat, Nat.shiftRight_zero, Nat.reducePow]

theorem fieldNnn_toNat (w : Word) : (fieldNnn w).toNat = w.toNat % 4096 := by
  simp only [fieldNnn, BitVec.extractLsb'_toNat, Nat.shiftRight_zero, Nat.reducePow]

/-! ## Words of bytes and formats -/

/-- Appending bit vectors adds the upper one's value shifted past the lower one. -/
theorem toNat_append_add {m n : Nat} (a : BitVec m) (b : BitVec n) : (a ++ b).toNat = a.toNat * 2 ^ n + b.toNat := by
  rw [BitVec.toNat_append, ← Nat.shiftLeft_add_eq_or_of_lt b.isLt, Nat.shiftLeft_eq]

theorem wordOfBytes_toNat (first second : Byte) :
    (wordOfBytes first second).toNat = first.toNat * 256 + second.toNat :=
  toNat_append_add first second

theorem encodeA_toNat (op : Nibble) (nnn : Addr) : (encodeA op nnn).toNat = op.toNat * 4096 + nnn.toNat :=
  toNat_append_add op nnn

theorem encodeXK_toNat (op : Nibble) (x : Reg) (kk : Byte) :
    (encodeXK op x kk).toNat = (op.toNat * 16 + x.val) * 256 + kk.toNat :=
  (toNat_append_add (op ++ (BitVec.ofFin x : Nibble)) kk).trans
    (congrArg (· * 256 + kk.toNat) (toNat_append_add op (BitVec.ofFin x : Nibble)))

theorem encodeXYN_toNat (op : Nibble) (x y : Reg) (n : Nibble) :
    (encodeXYN op x y n).toNat = ((op.toNat * 16 + x.val) * 16 + y.val) * 16 + n.toNat :=
  (toNat_append_add (op ++ (BitVec.ofFin x : Nibble) ++ (BitVec.ofFin y : Nibble)) n).trans
    (congrArg (· * 16 + n.toNat)
      ((toNat_append_add (op ++ (BitVec.ofFin x : Nibble)) (BitVec.ofFin y : Nibble)).trans
        (congrArg (· * 16 + y.val) (toNat_append_add op (BitVec.ofFin x : Nibble)))))

/-- The bytes of a word, put together again, are the word. -/
@[simp] theorem wordOfBytes_bytesOfWord (w : Word) : wordOfBytes (w.extractLsb' 8 8) (w.extractLsb' 0 8) = w := by
  have := w.isLt
  apply BitVec.eq_of_toNat_eq
  rw [wordOfBytes_toNat]
  simp only [BitVec.extractLsb'_toNat, Nat.shiftRight_eq_div_pow]
  omega

end Sys2Proof
end

