-- ==== Sys2Proof/Laws/Memory.lean ====
section
/-! SUPPORT. Memory laws: reads after writes, and the canonical form (spec/20_memory.md R52, R59). -/

namespace Sys2Proof.Machine

/-! ## One byte -/

theorem memFind_eq_none {m : Memory} {a : Nat} (h : ∀ c ∈ m, a < c.1) : memFind m a = none := by
  induction m with
  | nil => rfl
  | cons c m ih =>
    have hc : a < c.1 := h c (List.mem_cons_self ..)
    simp only [memFind, if_neg (Nat.ne_of_lt hc)]
    exact ih fun d hd => h d (List.mem_cons_of_mem c hd)

theorem memFind_memCons_ne {a c : Nat} (h : c ≠ a) (b : Byte) (m : Memory) : memFind (memCons a b m) c = memFind m c := by
  unfold memCons
  split
  · rfl
  · simp [memFind, h]

theorem memFind_memPut_ne {a c : Nat} (h : c ≠ a) (b : Byte) (m : Memory) : memFind (memPut m a b) c = memFind m c := by
  induction m with
  | nil => exact memFind_memCons_ne h b []
  | cons e m ih =>
    simp only [memPut]
    split
    · exact memFind_memCons_ne h b _
    · split
      · rename_i he
        rw [memFind_memCons_ne h b m]
        simp [memFind, ← he, h]
      · simp only [memFind, ih]

/-- A write leaves every other address alone. -/
theorem memGet_memPut_ne {a c : Nat} (h : c ≠ a) (b : Byte) (m : Memory) : memGet (memPut m a b) c = memGet m c := by
  simp only [memGet, memFind_memPut_ne h b m]

theorem memGet_memCons_self {a : Nat} (b : Byte) {m : Memory} (h : memFind m a = none) :
    memGet (memCons a b m) a = b := by
  unfold memCons memGet
  split
  · rename_i hb
    simp [h, hb]
  · simp [memFind]

/-- A read after a write to the same address gives the byte written. -/
theorem memGet_memPut_self {m : Memory} (hm : Memory.wf m) (a : Nat) (b : Byte) : memGet (memPut m a b) a = b := by
  obtain ⟨hs, -⟩ := hm
  induction m with
  | nil => exact memGet_memCons_self b rfl
  | cons e m ih =>
    obtain ⟨he, hs⟩ := List.pairwise_cons.mp hs
    simp only [memPut]
    split
    · rename_i hlt
      refine memGet_memCons_self b (memFind_eq_none fun d hd => ?_)
      rcases List.mem_cons.mp hd with rfl | hd
      · exact hlt
      · exact Nat.lt_trans hlt (he d hd)
    · split
      · rename_i heq
        exact memGet_memCons_self b (memFind_eq_none fun d hd => heq ▸ he d hd)
      · rename_i hne
        have := ih hs
        simp only [memGet, memFind, if_neg hne] at this ⊢
        exact this

theorem memGet_memPut {m : Memory} (hm : Memory.wf m) (a c : Nat) (b : Byte) :
    memGet (memPut m a b) c = if c = a then b else memGet m c := by
  split
  · rename_i h
    exact h ▸ memGet_memPut_self hm a b
  · rename_i h
    exact memGet_memPut_ne h b m

/-! ## The canonical form -/

theorem mem_of_mem_memCons {a : Nat} {b : Byte} {m : Memory} {c : Host.Cell} (h : c ∈ memCons a b m) :
    (c = (a, b) ∧ unlistedByte a ≠ some b) ∨ c ∈ m := by
  unfold memCons at h
  split at h
  · exact .inr h
  · rename_i hb
    rcases List.mem_cons.mp h with rfl | h
    · exact .inl ⟨rfl, hb⟩
    · exact .inr h

theorem mem_of_mem_memPut {a : Nat} {b : Byte} {m : Memory} {c : Host.Cell} (h : c ∈ memPut m a b) :
    (c = (a, b) ∧ unlistedByte a ≠ some b) ∨ c ∈ m := by
  induction m with
  | nil => exact mem_of_mem_memCons h
  | cons e m ih =>
    simp only [memPut] at h
    split at h
    · exact mem_of_mem_memCons h
    · split at h
      · exact (mem_of_mem_memCons h).imp_right (List.mem_cons_of_mem e)
      · rcases List.mem_cons.mp h with rfl | h
        · exact .inr (List.mem_cons_self ..)
        · exact (ih h).imp_right (List.mem_cons_of_mem e)

theorem memCons_rising {a : Nat} (b : Byte) {m : Memory} (hs : m.Pairwise fun c d => c.1 < d.1)
    (h : ∀ c ∈ m, a < c.1) : (memCons a b m).Pairwise fun c d => c.1 < d.1 := by
  unfold memCons
  split
  · exact hs
  · exact List.pairwise_cons.mpr ⟨h, hs⟩

theorem memPut_rising {m : Memory} (hs : m.Pairwise fun c d => c.1 < d.1) (a : Nat) (b : Byte) :
    (memPut m a b).Pairwise fun c d => c.1 < d.1 := by
  induction m with
  | nil => exact memCons_rising b List.Pairwise.nil (by simp)
  | cons e m ih =>
    obtain ⟨he, hs'⟩ := List.pairwise_cons.mp hs
    simp only [memPut]
    split
    · rename_i hlt
      refine memCons_rising b hs fun d hd => ?_
      rcases List.mem_cons.mp hd with rfl | hd
      · exact hlt
      · exact Nat.lt_trans hlt (he d hd)
    · split
      · rename_i heq
        exact memCons_rising b hs' fun d hd => heq ▸ he d hd
      · rename_i hge hne
        refine List.pairwise_cons.mpr ⟨fun d hd => ?_, ih hs'⟩
        rcases mem_of_mem_memPut hd with ⟨rfl, -⟩ | hd
        · show e.1 < a
          omega
        · exact he d hd

/-- A write inside the address space keeps the canonical form. -/
theorem memPut_wf {m : Memory} (hm : Memory.wf m) {a : Nat} (ha : a < Params.memSize) (b : Byte) :
    Memory.wf (memPut m a b) := by
  refine ⟨memPut_rising hm.1 a b, fun c hc => ?_⟩
  rcases mem_of_mem_memPut hc with ⟨rfl, hb⟩ | hc
  · exact ⟨ha, hb⟩
  · exact hm.2 c hc

/-! ## Runs of bytes -/

@[simp] theorem length_memGetRun (m : Memory) (a n : Nat) : (memGetRun m a n).length = n := by
  induction n generalizing a with
  | zero => rfl
  | succ n ih => simp [memGetRun, ih]

theorem getElem?_memGetRun (m : Memory) (a n k : Nat) :
    (memGetRun m a n)[k]? = if k < n then some (memGet m (a + k)) else none := by
  induction n generalizing a k with
  | zero => simp [memGetRun]
  | succ n ih =>
    cases k with
    | zero => simp [memGetRun]
    | succ k => simp [memGetRun, ih, Nat.add_comm, Nat.add_left_comm]

/-- A run of writes inside the address space keeps the canonical form. -/
theorem memPutRun_wf {m : Memory} (hm : Memory.wf m) {a : Nat} {bs : List Byte}
    (h : a + bs.length ≤ Params.memSize) : Memory.wf (memPutRun m a bs) := by
  induction bs generalizing m a with
  | nil => exact hm
  | cons b bs ih =>
    simp only [List.length_cons] at h
    exact ih (memPut_wf hm (by omega) b) (by omega)

/-- A run of writes leaves every address outside it alone. -/
theorem memGet_memPutRun_outside (m : Memory) {a c : Nat} (bs : List Byte) (h : c < a ∨ a + bs.length ≤ c) :
    memGet (memPutRun m a bs) c = memGet m c := by
  induction bs generalizing m a with
  | nil => rfl
  | cons b bs ih =>
    simp only [List.length_cons] at h
    rw [memPutRun, ih _ (by omega), memGet_memPut_ne (by omega)]

/-- A read inside a run of writes gives the byte written there. -/
theorem memGet_memPutRun_inside {m : Memory} (hm : Memory.wf m) {a : Nat} {bs : List Byte}
    (h : a + bs.length ≤ Params.memSize) {k : Nat} (hk : k < bs.length) :
    memGet (memPutRun m a bs) (a + k) = bs[k] := by
  induction bs generalizing m a k with
  | nil => exact absurd hk (Nat.not_lt_zero k)
  | cons b bs ih =>
    simp only [List.length_cons] at h hk
    cases k with
    | zero =>
      rw [memPutRun, memGet_memPutRun_outside _ bs (.inl (by omega))]
      exact memGet_memPut_self hm a b
    | succ k =>
      have := ih (memPut_wf hm (show a < Params.memSize by omega) b) (a := a + 1) (by omega) (k := k) (by omega)
      simpa only [memPutRun, List.getElem_cons_succ, Nat.add_assoc, Nat.add_comm 1 k] using this

/-! ## The bounds-checked accesses (spec/20_memory.md R52) -/

theorem readBytes_ok {s : State} {a : Word} {n : Nat} {bs : List Byte} :
    readBytes s a n = .ok bs ↔ a.toNat + n - 1 < Params.memSize ∧ bs = memGetRun s.mem a.toNat n := by
  unfold readBytes
  split
  · simp only [reduceCtorEq, false_iff]
    omega
  · simp only [Except.ok.injEq, eq_comm, iff_and_self]
    omega

theorem readBytes_error {s : State} {a : Word} {n : Nat} {f : Fault} :
    readBytes s a n = .error f ↔ Params.memSize ≤ a.toNat + n - 1 ∧ f = .outOfBounds .read s.pc a := by
  unfold readBytes
  split <;> simp_all [eq_comm]

theorem writeBytes_ok {s t : State} {a : Word} {bs : List Byte} :
    writeBytes s a bs = .ok t ↔
      a.toNat + bs.length - 1 < Params.memSize ∧ t = s.setMem (memPutRun s.mem a.toNat bs) := by
  unfold writeBytes
  split
  · simp only [reduceCtorEq, false_iff]
    omega
  · simp only [Except.ok.injEq, eq_comm, iff_and_self]
    omega

theorem writeBytes_error {s : State} {a : Word} {bs : List Byte} {f : Fault} :
    writeBytes s a bs = .error f ↔
      Params.memSize ≤ a.toNat + bs.length - 1 ∧ f = .outOfBounds .write s.pc a := by
  unfold writeBytes
  split <;> simp_all [eq_comm]

theorem fetch_ok {s : State} {w : Word} :
    fetch s = .ok w ↔
      s.pc.toNat + 1 < Params.memSize ∧ w = memGet s.mem s.pc.toNat ++ memGet s.mem (s.pc.toNat + 1) := by
  unfold fetch
  split
  · simp only [reduceCtorEq, false_iff]
    omega
  · simp only [Except.ok.injEq, eq_comm, iff_and_self]
    omega

theorem fetch_error {s : State} {f : Fault} :
    fetch s = .error f ↔ Params.memSize ≤ s.pc.toNat + 1 ∧ f = .outOfBounds .fetch s.pc s.pc := by
  unfold fetch
  split <;> simp_all [eq_comm]

end Sys2Proof.Machine
end

