-- ==== Sys2Proof/Laws/State.lean ====
section
/-! SUPPORT. One lemma per field per update of the state, so that no proof unfolds a record update. -/

namespace Sys2Proof.Machine.State

variable (s : State)

/-! ## `setReg` -/

@[simp] theorem setReg_v (x : Reg) (b : Byte) : (s.setReg x b).v = s.v.set x b := rfl
@[simp] theorem setReg_i (x : Reg) (b : Byte) : (s.setReg x b).i = s.i := rfl
@[simp] theorem setReg_pc (x : Reg) (b : Byte) : (s.setReg x b).pc = s.pc := rfl
@[simp] theorem setReg_sp (x : Reg) (b : Byte) : (s.setReg x b).sp = s.sp := rfl
@[simp] theorem setReg_dt (x : Reg) (b : Byte) : (s.setReg x b).dt = s.dt := rfl
@[simp] theorem setReg_st (x : Reg) (b : Byte) : (s.setReg x b).st = s.st := rfl
@[simp] theorem setReg_stack (x : Reg) (b : Byte) : (s.setReg x b).stack = s.stack := rfl
@[simp] theorem setReg_mem (x : Reg) (b : Byte) : (s.setReg x b).mem = s.mem := rfl
@[simp] theorem setReg_fb (x : Reg) (b : Byte) : (s.setReg x b).fb = s.fb := rfl
@[simp] theorem setReg_accDt (x : Reg) (b : Byte) : (s.setReg x b).accDt = s.accDt := rfl
@[simp] theorem setReg_accSt (x : Reg) (b : Byte) : (s.setReg x b).accSt = s.accSt := rfl
@[simp] theorem setReg_accCpu (x : Reg) (b : Byte) : (s.setReg x b).accCpu = s.accCpu := rfl
@[simp] theorem setReg_status (x : Reg) (b : Byte) : (s.setReg x b).status = s.status := rfl
@[simp] theorem setReg_events (x : Reg) (b : Byte) : (s.setReg x b).events = s.events := rfl
@[simp] theorem setReg_moves (x : Reg) (b : Byte) : (s.setReg x b).moves = s.moves := rfl
@[simp] theorem setReg_rounds (x : Reg) (b : Byte) : (s.setReg x b).rounds = s.rounds := rfl
@[simp] theorem setReg_keyQueue (x : Reg) (b : Byte) : (s.setReg x b).keyQueue = s.keyQueue := rfl
@[simp] theorem setReg_byteQueue (x : Reg) (b : Byte) : (s.setReg x b).byteQueue = s.byteQueue := rfl
@[simp] theorem setReg_draws (x : Reg) (b : Byte) : (s.setReg x b).draws = s.draws := rfl

/-! ## `setRegs` -/

@[simp] theorem setRegs_v (v : Vector Byte 16) : (s.setRegs v).v = v := rfl
@[simp] theorem setRegs_i (v : Vector Byte 16) : (s.setRegs v).i = s.i := rfl
@[simp] theorem setRegs_pc (v : Vector Byte 16) : (s.setRegs v).pc = s.pc := rfl
@[simp] theorem setRegs_sp (v : Vector Byte 16) : (s.setRegs v).sp = s.sp := rfl
@[simp] theorem setRegs_dt (v : Vector Byte 16) : (s.setRegs v).dt = s.dt := rfl
@[simp] theorem setRegs_st (v : Vector Byte 16) : (s.setRegs v).st = s.st := rfl
@[simp] theorem setRegs_stack (v : Vector Byte 16) : (s.setRegs v).stack = s.stack := rfl
@[simp] theorem setRegs_mem (v : Vector Byte 16) : (s.setRegs v).mem = s.mem := rfl
@[simp] theorem setRegs_fb (v : Vector Byte 16) : (s.setRegs v).fb = s.fb := rfl
@[simp] theorem setRegs_accDt (v : Vector Byte 16) : (s.setRegs v).accDt = s.accDt := rfl
@[simp] theorem setRegs_accSt (v : Vector Byte 16) : (s.setRegs v).accSt = s.accSt := rfl
@[simp] theorem setRegs_accCpu (v : Vector Byte 16) : (s.setRegs v).accCpu = s.accCpu := rfl
@[simp] theorem setRegs_status (v : Vector Byte 16) : (s.setRegs v).status = s.status := rfl
@[simp] theorem setRegs_events (v : Vector Byte 16) : (s.setRegs v).events = s.events := rfl
@[simp] theorem setRegs_moves (v : Vector Byte 16) : (s.setRegs v).moves = s.moves := rfl
@[simp] theorem setRegs_rounds (v : Vector Byte 16) : (s.setRegs v).rounds = s.rounds := rfl
@[simp] theorem setRegs_keyQueue (v : Vector Byte 16) : (s.setRegs v).keyQueue = s.keyQueue := rfl
@[simp] theorem setRegs_byteQueue (v : Vector Byte 16) : (s.setRegs v).byteQueue = s.byteQueue := rfl
@[simp] theorem setRegs_draws (v : Vector Byte 16) : (s.setRegs v).draws = s.draws := rfl

/-! ## `setFlag` -/

@[simp] theorem setFlag_v (f : Bool) : (s.setFlag f).v = s.v.set flagReg (flagByte f) := rfl
@[simp] theorem setFlag_i (f : Bool) : (s.setFlag f).i = s.i := rfl
@[simp] theorem setFlag_pc (f : Bool) : (s.setFlag f).pc = s.pc := rfl
@[simp] theorem setFlag_sp (f : Bool) : (s.setFlag f).sp = s.sp := rfl
@[simp] theorem setFlag_dt (f : Bool) : (s.setFlag f).dt = s.dt := rfl
@[simp] theorem setFlag_st (f : Bool) : (s.setFlag f).st = s.st := rfl
@[simp] theorem setFlag_stack (f : Bool) : (s.setFlag f).stack = s.stack := rfl
@[simp] theorem setFlag_mem (f : Bool) : (s.setFlag f).mem = s.mem := rfl
@[simp] theorem setFlag_fb (f : Bool) : (s.setFlag f).fb = s.fb := rfl
@[simp] theorem setFlag_accDt (f : Bool) : (s.setFlag f).accDt = s.accDt := rfl
@[simp] theorem setFlag_accSt (f : Bool) : (s.setFlag f).accSt = s.accSt := rfl
@[simp] theorem setFlag_accCpu (f : Bool) : (s.setFlag f).accCpu = s.accCpu := rfl
@[simp] theorem setFlag_status (f : Bool) : (s.setFlag f).status = s.status := rfl
@[simp] theorem setFlag_events (f : Bool) : (s.setFlag f).events = s.events := rfl
@[simp] theorem setFlag_moves (f : Bool) : (s.setFlag f).moves = s.moves := rfl
@[simp] theorem setFlag_rounds (f : Bool) : (s.setFlag f).rounds = s.rounds := rfl
@[simp] theorem setFlag_keyQueue (f : Bool) : (s.setFlag f).keyQueue = s.keyQueue := rfl
@[simp] theorem setFlag_byteQueue (f : Bool) : (s.setFlag f).byteQueue = s.byteQueue := rfl
@[simp] theorem setFlag_draws (f : Bool) : (s.setFlag f).draws = s.draws := rfl

/-! ## `setI` -/

@[simp] theorem setI_v (w : Word) : (s.setI w).v = s.v := rfl
@[simp] theorem setI_i (w : Word) : (s.setI w).i = w := rfl
@[simp] theorem setI_pc (w : Word) : (s.setI w).pc = s.pc := rfl
@[simp] theorem setI_sp (w : Word) : (s.setI w).sp = s.sp := rfl
@[simp] theorem setI_dt (w : Word) : (s.setI w).dt = s.dt := rfl
@[simp] theorem setI_st (w : Word) : (s.setI w).st = s.st := rfl
@[simp] theorem setI_stack (w : Word) : (s.setI w).stack = s.stack := rfl
@[simp] theorem setI_mem (w : Word) : (s.setI w).mem = s.mem := rfl
@[simp] theorem setI_fb (w : Word) : (s.setI w).fb = s.fb := rfl
@[simp] theorem setI_accDt (w : Word) : (s.setI w).accDt = s.accDt := rfl
@[simp] theorem setI_accSt (w : Word) : (s.setI w).accSt = s.accSt := rfl
@[simp] theorem setI_accCpu (w : Word) : (s.setI w).accCpu = s.accCpu := rfl
@[simp] theorem setI_status (w : Word) : (s.setI w).status = s.status := rfl
@[simp] theorem setI_events (w : Word) : (s.setI w).events = s.events := rfl
@[simp] theorem setI_moves (w : Word) : (s.setI w).moves = s.moves := rfl
@[simp] theorem setI_rounds (w : Word) : (s.setI w).rounds = s.rounds := rfl
@[simp] theorem setI_keyQueue (w : Word) : (s.setI w).keyQueue = s.keyQueue := rfl
@[simp] theorem setI_byteQueue (w : Word) : (s.setI w).byteQueue = s.byteQueue := rfl
@[simp] theorem setI_draws (w : Word) : (s.setI w).draws = s.draws := rfl

/-! ## `setPc` -/

@[simp] theorem setPc_v (w : Word) : (s.setPc w).v = s.v := rfl
@[simp] theorem setPc_i (w : Word) : (s.setPc w).i = s.i := rfl
@[simp] theorem setPc_pc (w : Word) : (s.setPc w).pc = w := rfl
@[simp] theorem setPc_sp (w : Word) : (s.setPc w).sp = s.sp := rfl
@[simp] theorem setPc_dt (w : Word) : (s.setPc w).dt = s.dt := rfl
@[simp] theorem setPc_st (w : Word) : (s.setPc w).st = s.st := rfl
@[simp] theorem setPc_stack (w : Word) : (s.setPc w).stack = s.stack := rfl
@[simp] theorem setPc_mem (w : Word) : (s.setPc w).mem = s.mem := rfl
@[simp] theorem setPc_fb (w : Word) : (s.setPc w).fb = s.fb := rfl
@[simp] theorem setPc_accDt (w : Word) : (s.setPc w).accDt = s.accDt := rfl
@[simp] theorem setPc_accSt (w : Word) : (s.setPc w).accSt = s.accSt := rfl
@[simp] theorem setPc_accCpu (w : Word) : (s.setPc w).accCpu = s.accCpu := rfl
@[simp] theorem setPc_status (w : Word) : (s.setPc w).status = s.status := rfl
@[simp] theorem setPc_events (w : Word) : (s.setPc w).events = s.events := rfl
@[simp] theorem setPc_moves (w : Word) : (s.setPc w).moves = s.moves := rfl
@[simp] theorem setPc_rounds (w : Word) : (s.setPc w).rounds = s.rounds := rfl
@[simp] theorem setPc_keyQueue (w : Word) : (s.setPc w).keyQueue = s.keyQueue := rfl
@[simp] theorem setPc_byteQueue (w : Word) : (s.setPc w).byteQueue = s.byteQueue := rfl
@[simp] theorem setPc_draws (w : Word) : (s.setPc w).draws = s.draws := rfl

/-! ## `setSp` -/

@[simp] theorem setSp_v (b : BitVec 8) : (s.setSp b).v = s.v := rfl
@[simp] theorem setSp_i (b : BitVec 8) : (s.setSp b).i = s.i := rfl
@[simp] theorem setSp_pc (b : BitVec 8) : (s.setSp b).pc = s.pc := rfl
@[simp] theorem setSp_sp (b : BitVec 8) : (s.setSp b).sp = b := rfl
@[simp] theorem setSp_dt (b : BitVec 8) : (s.setSp b).dt = s.dt := rfl
@[simp] theorem setSp_st (b : BitVec 8) : (s.setSp b).st = s.st := rfl
@[simp] theorem setSp_stack (b : BitVec 8) : (s.setSp b).stack = s.stack := rfl
@[simp] theorem setSp_mem (b : BitVec 8) : (s.setSp b).mem = s.mem := rfl
@[simp] theorem setSp_fb (b : BitVec 8) : (s.setSp b).fb = s.fb := rfl
@[simp] theorem setSp_accDt (b : BitVec 8) : (s.setSp b).accDt = s.accDt := rfl
@[simp] theorem setSp_accSt (b : BitVec 8) : (s.setSp b).accSt = s.accSt := rfl
@[simp] theorem setSp_accCpu (b : BitVec 8) : (s.setSp b).accCpu = s.accCpu := rfl
@[simp] theorem setSp_status (b : BitVec 8) : (s.setSp b).status = s.status := rfl
@[simp] theorem setSp_events (b : BitVec 8) : (s.setSp b).events = s.events := rfl
@[simp] theorem setSp_moves (b : BitVec 8) : (s.setSp b).moves = s.moves := rfl
@[simp] theorem setSp_rounds (b : BitVec 8) : (s.setSp b).rounds = s.rounds := rfl
@[simp] theorem setSp_keyQueue (b : BitVec 8) : (s.setSp b).keyQueue = s.keyQueue := rfl
@[simp] theorem setSp_byteQueue (b : BitVec 8) : (s.setSp b).byteQueue = s.byteQueue := rfl
@[simp] theorem setSp_draws (b : BitVec 8) : (s.setSp b).draws = s.draws := rfl

/-! ## `setSlot` -/

@[simp] theorem setSlot_v (k : Fin 16) (w : Word) : (s.setSlot k w).v = s.v := rfl
@[simp] theorem setSlot_i (k : Fin 16) (w : Word) : (s.setSlot k w).i = s.i := rfl
@[simp] theorem setSlot_pc (k : Fin 16) (w : Word) : (s.setSlot k w).pc = s.pc := rfl
@[simp] theorem setSlot_sp (k : Fin 16) (w : Word) : (s.setSlot k w).sp = s.sp := rfl
@[simp] theorem setSlot_dt (k : Fin 16) (w : Word) : (s.setSlot k w).dt = s.dt := rfl
@[simp] theorem setSlot_st (k : Fin 16) (w : Word) : (s.setSlot k w).st = s.st := rfl
@[simp] theorem setSlot_stack (k : Fin 16) (w : Word) : (s.setSlot k w).stack = s.stack.set k w := rfl
@[simp] theorem setSlot_mem (k : Fin 16) (w : Word) : (s.setSlot k w).mem = s.mem := rfl
@[simp] theorem setSlot_fb (k : Fin 16) (w : Word) : (s.setSlot k w).fb = s.fb := rfl
@[simp] theorem setSlot_accDt (k : Fin 16) (w : Word) : (s.setSlot k w).accDt = s.accDt := rfl
@[simp] theorem setSlot_accSt (k : Fin 16) (w : Word) : (s.setSlot k w).accSt = s.accSt := rfl
@[simp] theorem setSlot_accCpu (k : Fin 16) (w : Word) : (s.setSlot k w).accCpu = s.accCpu := rfl
@[simp] theorem setSlot_status (k : Fin 16) (w : Word) : (s.setSlot k w).status = s.status := rfl
@[simp] theorem setSlot_events (k : Fin 16) (w : Word) : (s.setSlot k w).events = s.events := rfl
@[simp] theorem setSlot_moves (k : Fin 16) (w : Word) : (s.setSlot k w).moves = s.moves := rfl
@[simp] theorem setSlot_rounds (k : Fin 16) (w : Word) : (s.setSlot k w).rounds = s.rounds := rfl
@[simp] theorem setSlot_keyQueue (k : Fin 16) (w : Word) : (s.setSlot k w).keyQueue = s.keyQueue := rfl
@[simp] theorem setSlot_byteQueue (k : Fin 16) (w : Word) : (s.setSlot k w).byteQueue = s.byteQueue := rfl
@[simp] theorem setSlot_draws (k : Fin 16) (w : Word) : (s.setSlot k w).draws = s.draws := rfl

/-! ## `setDt` -/

@[simp] theorem setDt_v (b : Byte) : (s.setDt b).v = s.v := rfl
@[simp] theorem setDt_i (b : Byte) : (s.setDt b).i = s.i := rfl
@[simp] theorem setDt_pc (b : Byte) : (s.setDt b).pc = s.pc := rfl
@[simp] theorem setDt_sp (b : Byte) : (s.setDt b).sp = s.sp := rfl
@[simp] theorem setDt_dt (b : Byte) : (s.setDt b).dt = b := rfl
@[simp] theorem setDt_st (b : Byte) : (s.setDt b).st = s.st := rfl
@[simp] theorem setDt_stack (b : Byte) : (s.setDt b).stack = s.stack := rfl
@[simp] theorem setDt_mem (b : Byte) : (s.setDt b).mem = s.mem := rfl
@[simp] theorem setDt_fb (b : Byte) : (s.setDt b).fb = s.fb := rfl
@[simp] theorem setDt_accDt (b : Byte) : (s.setDt b).accDt = s.accDt := rfl
@[simp] theorem setDt_accSt (b : Byte) : (s.setDt b).accSt = s.accSt := rfl
@[simp] theorem setDt_accCpu (b : Byte) : (s.setDt b).accCpu = s.accCpu := rfl
@[simp] theorem setDt_status (b : Byte) : (s.setDt b).status = s.status := rfl
@[simp] theorem setDt_events (b : Byte) : (s.setDt b).events = s.events := rfl
@[simp] theorem setDt_moves (b : Byte) : (s.setDt b).moves = s.moves := rfl
@[simp] theorem setDt_rounds (b : Byte) : (s.setDt b).rounds = s.rounds := rfl
@[simp] theorem setDt_keyQueue (b : Byte) : (s.setDt b).keyQueue = s.keyQueue := rfl
@[simp] theorem setDt_byteQueue (b : Byte) : (s.setDt b).byteQueue = s.byteQueue := rfl
@[simp] theorem setDt_draws (b : Byte) : (s.setDt b).draws = s.draws := rfl

/-! ## `setSt` -/

@[simp] theorem setSt_v (b : Byte) : (s.setSt b).v = s.v := rfl
@[simp] theorem setSt_i (b : Byte) : (s.setSt b).i = s.i := rfl
@[simp] theorem setSt_pc (b : Byte) : (s.setSt b).pc = s.pc := rfl
@[simp] theorem setSt_sp (b : Byte) : (s.setSt b).sp = s.sp := rfl
@[simp] theorem setSt_dt (b : Byte) : (s.setSt b).dt = s.dt := rfl
@[simp] theorem setSt_st (b : Byte) : (s.setSt b).st = b := rfl
@[simp] theorem setSt_stack (b : Byte) : (s.setSt b).stack = s.stack := rfl
@[simp] theorem setSt_mem (b : Byte) : (s.setSt b).mem = s.mem := rfl
@[simp] theorem setSt_fb (b : Byte) : (s.setSt b).fb = s.fb := rfl
@[simp] theorem setSt_accDt (b : Byte) : (s.setSt b).accDt = s.accDt := rfl
@[simp] theorem setSt_accSt (b : Byte) : (s.setSt b).accSt = s.accSt := rfl
@[simp] theorem setSt_accCpu (b : Byte) : (s.setSt b).accCpu = s.accCpu := rfl
@[simp] theorem setSt_status (b : Byte) : (s.setSt b).status = s.status := rfl
@[simp] theorem setSt_events (b : Byte) : (s.setSt b).events = s.events := rfl
@[simp] theorem setSt_moves (b : Byte) : (s.setSt b).moves = s.moves := rfl
@[simp] theorem setSt_rounds (b : Byte) : (s.setSt b).rounds = s.rounds := rfl
@[simp] theorem setSt_keyQueue (b : Byte) : (s.setSt b).keyQueue = s.keyQueue := rfl
@[simp] theorem setSt_byteQueue (b : Byte) : (s.setSt b).byteQueue = s.byteQueue := rfl
@[simp] theorem setSt_draws (b : Byte) : (s.setSt b).draws = s.draws := rfl

/-! ## `setMem` -/

@[simp] theorem setMem_v (m : Memory) : (s.setMem m).v = s.v := rfl
@[simp] theorem setMem_i (m : Memory) : (s.setMem m).i = s.i := rfl
@[simp] theorem setMem_pc (m : Memory) : (s.setMem m).pc = s.pc := rfl
@[simp] theorem setMem_sp (m : Memory) : (s.setMem m).sp = s.sp := rfl
@[simp] theorem setMem_dt (m : Memory) : (s.setMem m).dt = s.dt := rfl
@[simp] theorem setMem_st (m : Memory) : (s.setMem m).st = s.st := rfl
@[simp] theorem setMem_stack (m : Memory) : (s.setMem m).stack = s.stack := rfl
@[simp] theorem setMem_mem (m : Memory) : (s.setMem m).mem = m := rfl
@[simp] theorem setMem_fb (m : Memory) : (s.setMem m).fb = s.fb := rfl
@[simp] theorem setMem_accDt (m : Memory) : (s.setMem m).accDt = s.accDt := rfl
@[simp] theorem setMem_accSt (m : Memory) : (s.setMem m).accSt = s.accSt := rfl
@[simp] theorem setMem_accCpu (m : Memory) : (s.setMem m).accCpu = s.accCpu := rfl
@[simp] theorem setMem_status (m : Memory) : (s.setMem m).status = s.status := rfl
@[simp] theorem setMem_events (m : Memory) : (s.setMem m).events = s.events := rfl
@[simp] theorem setMem_moves (m : Memory) : (s.setMem m).moves = s.moves := rfl
@[simp] theorem setMem_rounds (m : Memory) : (s.setMem m).rounds = s.rounds := rfl
@[simp] theorem setMem_keyQueue (m : Memory) : (s.setMem m).keyQueue = s.keyQueue := rfl
@[simp] theorem setMem_byteQueue (m : Memory) : (s.setMem m).byteQueue = s.byteQueue := rfl
@[simp] theorem setMem_draws (m : Memory) : (s.setMem m).draws = s.draws := rfl

/-! ## `setFb` -/

@[simp] theorem setFb_v (fb : Framebuffer) : (s.setFb fb).v = s.v := rfl
@[simp] theorem setFb_i (fb : Framebuffer) : (s.setFb fb).i = s.i := rfl
@[simp] theorem setFb_pc (fb : Framebuffer) : (s.setFb fb).pc = s.pc := rfl
@[simp] theorem setFb_sp (fb : Framebuffer) : (s.setFb fb).sp = s.sp := rfl
@[simp] theorem setFb_dt (fb : Framebuffer) : (s.setFb fb).dt = s.dt := rfl
@[simp] theorem setFb_st (fb : Framebuffer) : (s.setFb fb).st = s.st := rfl
@[simp] theorem setFb_stack (fb : Framebuffer) : (s.setFb fb).stack = s.stack := rfl
@[simp] theorem setFb_mem (fb : Framebuffer) : (s.setFb fb).mem = s.mem := rfl
@[simp] theorem setFb_fb (fb : Framebuffer) : (s.setFb fb).fb = fb := rfl
@[simp] theorem setFb_accDt (fb : Framebuffer) : (s.setFb fb).accDt = s.accDt := rfl
@[simp] theorem setFb_accSt (fb : Framebuffer) : (s.setFb fb).accSt = s.accSt := rfl
@[simp] theorem setFb_accCpu (fb : Framebuffer) : (s.setFb fb).accCpu = s.accCpu := rfl
@[simp] theorem setFb_status (fb : Framebuffer) : (s.setFb fb).status = s.status := rfl
@[simp] theorem setFb_events (fb : Framebuffer) : (s.setFb fb).events = s.events := rfl
@[simp] theorem setFb_moves (fb : Framebuffer) : (s.setFb fb).moves = s.moves := rfl
@[simp] theorem setFb_rounds (fb : Framebuffer) : (s.setFb fb).rounds = s.rounds := rfl
@[simp] theorem setFb_keyQueue (fb : Framebuffer) : (s.setFb fb).keyQueue = s.keyQueue := rfl
@[simp] theorem setFb_byteQueue (fb : Framebuffer) : (s.setFb fb).byteQueue = s.byteQueue := rfl
@[simp] theorem setFb_draws (fb : Framebuffer) : (s.setFb fb).draws = s.draws := rfl

/-! ## `emit` -/

@[simp] theorem emit_v (e : Event) : (s.emit e).v = s.v := rfl
@[simp] theorem emit_i (e : Event) : (s.emit e).i = s.i := rfl
@[simp] theorem emit_pc (e : Event) : (s.emit e).pc = s.pc := rfl
@[simp] theorem emit_sp (e : Event) : (s.emit e).sp = s.sp := rfl
@[simp] theorem emit_dt (e : Event) : (s.emit e).dt = s.dt := rfl
@[simp] theorem emit_st (e : Event) : (s.emit e).st = s.st := rfl
@[simp] theorem emit_stack (e : Event) : (s.emit e).stack = s.stack := rfl
@[simp] theorem emit_mem (e : Event) : (s.emit e).mem = s.mem := rfl
@[simp] theorem emit_fb (e : Event) : (s.emit e).fb = s.fb := rfl
@[simp] theorem emit_accDt (e : Event) : (s.emit e).accDt = s.accDt := rfl
@[simp] theorem emit_accSt (e : Event) : (s.emit e).accSt = s.accSt := rfl
@[simp] theorem emit_accCpu (e : Event) : (s.emit e).accCpu = s.accCpu := rfl
@[simp] theorem emit_status (e : Event) : (s.emit e).status = s.status := rfl
@[simp] theorem emit_events (e : Event) : (s.emit e).events = s.events ++ [e] := rfl
@[simp] theorem emit_moves (e : Event) : (s.emit e).moves = s.moves := rfl
@[simp] theorem emit_rounds (e : Event) : (s.emit e).rounds = s.rounds := rfl
@[simp] theorem emit_keyQueue (e : Event) : (s.emit e).keyQueue = s.keyQueue := rfl
@[simp] theorem emit_byteQueue (e : Event) : (s.emit e).byteQueue = s.byteQueue := rfl
@[simp] theorem emit_draws (e : Event) : (s.emit e).draws = s.draws := rfl

/-! ## `setStatus` -/

@[simp] theorem setStatus_v (r : RunStatus) : (s.setStatus r).v = s.v := rfl
@[simp] theorem setStatus_i (r : RunStatus) : (s.setStatus r).i = s.i := rfl
@[simp] theorem setStatus_pc (r : RunStatus) : (s.setStatus r).pc = s.pc := rfl
@[simp] theorem setStatus_sp (r : RunStatus) : (s.setStatus r).sp = s.sp := rfl
@[simp] theorem setStatus_dt (r : RunStatus) : (s.setStatus r).dt = s.dt := rfl
@[simp] theorem setStatus_st (r : RunStatus) : (s.setStatus r).st = s.st := rfl
@[simp] theorem setStatus_stack (r : RunStatus) : (s.setStatus r).stack = s.stack := rfl
@[simp] theorem setStatus_mem (r : RunStatus) : (s.setStatus r).mem = s.mem := rfl
@[simp] theorem setStatus_fb (r : RunStatus) : (s.setStatus r).fb = s.fb := rfl
@[simp] theorem setStatus_accDt (r : RunStatus) : (s.setStatus r).accDt = s.accDt := rfl
@[simp] theorem setStatus_accSt (r : RunStatus) : (s.setStatus r).accSt = s.accSt := rfl
@[simp] theorem setStatus_accCpu (r : RunStatus) : (s.setStatus r).accCpu = s.accCpu := rfl
@[simp] theorem setStatus_status (r : RunStatus) : (s.setStatus r).status = r := rfl
@[simp] theorem setStatus_events (r : RunStatus) : (s.setStatus r).events = s.events := rfl
@[simp] theorem setStatus_moves (r : RunStatus) : (s.setStatus r).moves = s.moves := rfl
@[simp] theorem setStatus_rounds (r : RunStatus) : (s.setStatus r).rounds = s.rounds := rfl
@[simp] theorem setStatus_keyQueue (r : RunStatus) : (s.setStatus r).keyQueue = s.keyQueue := rfl
@[simp] theorem setStatus_byteQueue (r : RunStatus) : (s.setStatus r).byteQueue = s.byteQueue := rfl
@[simp] theorem setStatus_draws (r : RunStatus) : (s.setStatus r).draws = s.draws := rfl

/-! ## `takeFault` -/

@[simp] theorem takeFault_v (f : Fault) : (s.takeFault f).v = s.v := rfl
@[simp] theorem takeFault_i (f : Fault) : (s.takeFault f).i = s.i := rfl
@[simp] theorem takeFault_pc (f : Fault) : (s.takeFault f).pc = s.pc := rfl
@[simp] theorem takeFault_sp (f : Fault) : (s.takeFault f).sp = s.sp := rfl
@[simp] theorem takeFault_dt (f : Fault) : (s.takeFault f).dt = s.dt := rfl
@[simp] theorem takeFault_st (f : Fault) : (s.takeFault f).st = s.st := rfl
@[simp] theorem takeFault_stack (f : Fault) : (s.takeFault f).stack = s.stack := rfl
@[simp] theorem takeFault_mem (f : Fault) : (s.takeFault f).mem = s.mem := rfl
@[simp] theorem takeFault_fb (f : Fault) : (s.takeFault f).fb = s.fb := rfl
@[simp] theorem takeFault_accDt (f : Fault) : (s.takeFault f).accDt = s.accDt := rfl
@[simp] theorem takeFault_accSt (f : Fault) : (s.takeFault f).accSt = s.accSt := rfl
@[simp] theorem takeFault_accCpu (f : Fault) : (s.takeFault f).accCpu = s.accCpu := rfl
@[simp] theorem takeFault_status (f : Fault) : (s.takeFault f).status = .faulted f := rfl
@[simp] theorem takeFault_events (f : Fault) : (s.takeFault f).events = s.events := rfl
@[simp] theorem takeFault_moves (f : Fault) : (s.takeFault f).moves = s.moves := rfl
@[simp] theorem takeFault_rounds (f : Fault) : (s.takeFault f).rounds = s.rounds := rfl
@[simp] theorem takeFault_keyQueue (f : Fault) : (s.takeFault f).keyQueue = s.keyQueue := rfl
@[simp] theorem takeFault_byteQueue (f : Fault) : (s.takeFault f).byteQueue = s.byteQueue := rfl
@[simp] theorem takeFault_draws (f : Fault) : (s.takeFault f).draws = s.draws := rfl

/-! ## `setMoves` -/

@[simp] theorem setMoves_v (ms : List Move) : (s.setMoves ms).v = s.v := rfl
@[simp] theorem setMoves_i (ms : List Move) : (s.setMoves ms).i = s.i := rfl
@[simp] theorem setMoves_pc (ms : List Move) : (s.setMoves ms).pc = s.pc := rfl
@[simp] theorem setMoves_sp (ms : List Move) : (s.setMoves ms).sp = s.sp := rfl
@[simp] theorem setMoves_dt (ms : List Move) : (s.setMoves ms).dt = s.dt := rfl
@[simp] theorem setMoves_st (ms : List Move) : (s.setMoves ms).st = s.st := rfl
@[simp] theorem setMoves_stack (ms : List Move) : (s.setMoves ms).stack = s.stack := rfl
@[simp] theorem setMoves_mem (ms : List Move) : (s.setMoves ms).mem = s.mem := rfl
@[simp] theorem setMoves_fb (ms : List Move) : (s.setMoves ms).fb = s.fb := rfl
@[simp] theorem setMoves_accDt (ms : List Move) : (s.setMoves ms).accDt = s.accDt := rfl
@[simp] theorem setMoves_accSt (ms : List Move) : (s.setMoves ms).accSt = s.accSt := rfl
@[simp] theorem setMoves_accCpu (ms : List Move) : (s.setMoves ms).accCpu = s.accCpu := rfl
@[simp] theorem setMoves_status (ms : List Move) : (s.setMoves ms).status = s.status := rfl
@[simp] theorem setMoves_events (ms : List Move) : (s.setMoves ms).events = s.events := rfl
@[simp] theorem setMoves_moves (ms : List Move) : (s.setMoves ms).moves = ms := rfl
@[simp] theorem setMoves_rounds (ms : List Move) : (s.setMoves ms).rounds = s.rounds := rfl
@[simp] theorem setMoves_keyQueue (ms : List Move) : (s.setMoves ms).keyQueue = s.keyQueue := rfl
@[simp] theorem setMoves_byteQueue (ms : List Move) : (s.setMoves ms).byteQueue = s.byteQueue := rfl
@[simp] theorem setMoves_draws (ms : List Move) : (s.setMoves ms).draws = s.draws := rfl

/-! ## `setAccCpu` -/

@[simp] theorem setAccCpu_v (t : Nat) : (s.setAccCpu t).v = s.v := rfl
@[simp] theorem setAccCpu_i (t : Nat) : (s.setAccCpu t).i = s.i := rfl
@[simp] theorem setAccCpu_pc (t : Nat) : (s.setAccCpu t).pc = s.pc := rfl
@[simp] theorem setAccCpu_sp (t : Nat) : (s.setAccCpu t).sp = s.sp := rfl
@[simp] theorem setAccCpu_dt (t : Nat) : (s.setAccCpu t).dt = s.dt := rfl
@[simp] theorem setAccCpu_st (t : Nat) : (s.setAccCpu t).st = s.st := rfl
@[simp] theorem setAccCpu_stack (t : Nat) : (s.setAccCpu t).stack = s.stack := rfl
@[simp] theorem setAccCpu_mem (t : Nat) : (s.setAccCpu t).mem = s.mem := rfl
@[simp] theorem setAccCpu_fb (t : Nat) : (s.setAccCpu t).fb = s.fb := rfl
@[simp] theorem setAccCpu_accDt (t : Nat) : (s.setAccCpu t).accDt = s.accDt := rfl
@[simp] theorem setAccCpu_accSt (t : Nat) : (s.setAccCpu t).accSt = s.accSt := rfl
@[simp] theorem setAccCpu_accCpu (t : Nat) : (s.setAccCpu t).accCpu = t := rfl
@[simp] theorem setAccCpu_status (t : Nat) : (s.setAccCpu t).status = s.status := rfl
@[simp] theorem setAccCpu_events (t : Nat) : (s.setAccCpu t).events = s.events := rfl
@[simp] theorem setAccCpu_moves (t : Nat) : (s.setAccCpu t).moves = s.moves := rfl
@[simp] theorem setAccCpu_rounds (t : Nat) : (s.setAccCpu t).rounds = s.rounds := rfl
@[simp] theorem setAccCpu_keyQueue (t : Nat) : (s.setAccCpu t).keyQueue = s.keyQueue := rfl
@[simp] theorem setAccCpu_byteQueue (t : Nat) : (s.setAccCpu t).byteQueue = s.byteQueue := rfl
@[simp] theorem setAccCpu_draws (t : Nat) : (s.setAccCpu t).draws = s.draws := rfl

/-! ## `tookKeys` -/

@[simp] theorem tookKeys_v : s.tookKeys.v = s.v := rfl
@[simp] theorem tookKeys_i : s.tookKeys.i = s.i := rfl
@[simp] theorem tookKeys_pc : s.tookKeys.pc = s.pc := rfl
@[simp] theorem tookKeys_sp : s.tookKeys.sp = s.sp := rfl
@[simp] theorem tookKeys_dt : s.tookKeys.dt = s.dt := rfl
@[simp] theorem tookKeys_st : s.tookKeys.st = s.st := rfl
@[simp] theorem tookKeys_stack : s.tookKeys.stack = s.stack := rfl
@[simp] theorem tookKeys_mem : s.tookKeys.mem = s.mem := rfl
@[simp] theorem tookKeys_fb : s.tookKeys.fb = s.fb := rfl
@[simp] theorem tookKeys_accDt : s.tookKeys.accDt = s.accDt := rfl
@[simp] theorem tookKeys_accSt : s.tookKeys.accSt = s.accSt := rfl
@[simp] theorem tookKeys_accCpu : s.tookKeys.accCpu = s.accCpu := rfl
@[simp] theorem tookKeys_status : s.tookKeys.status = s.status := rfl
@[simp] theorem tookKeys_events : s.tookKeys.events = s.events := rfl
@[simp] theorem tookKeys_moves : s.tookKeys.moves = s.moves := rfl
@[simp] theorem tookKeys_rounds : s.tookKeys.rounds = s.rounds := rfl
@[simp] theorem tookKeys_keyQueue : s.tookKeys.keyQueue = s.keyQueue.tail := rfl
@[simp] theorem tookKeys_byteQueue : s.tookKeys.byteQueue = s.byteQueue := rfl
@[simp] theorem tookKeys_draws : s.tookKeys.draws = if s.keyQueue = [] then s.draws + 1 else s.draws := rfl

/-! ## `tookMove` -/

@[simp] theorem tookMove_v : s.tookMove.v = s.v := rfl
@[simp] theorem tookMove_i : s.tookMove.i = s.i := rfl
@[simp] theorem tookMove_pc : s.tookMove.pc = s.pc := rfl
@[simp] theorem tookMove_sp : s.tookMove.sp = s.sp := rfl
@[simp] theorem tookMove_dt : s.tookMove.dt = s.dt := rfl
@[simp] theorem tookMove_st : s.tookMove.st = s.st := rfl
@[simp] theorem tookMove_stack : s.tookMove.stack = s.stack := rfl
@[simp] theorem tookMove_mem : s.tookMove.mem = s.mem := rfl
@[simp] theorem tookMove_fb : s.tookMove.fb = s.fb := rfl
@[simp] theorem tookMove_accDt : s.tookMove.accDt = s.accDt := rfl
@[simp] theorem tookMove_accSt : s.tookMove.accSt = s.accSt := rfl
@[simp] theorem tookMove_accCpu : s.tookMove.accCpu = s.accCpu := rfl
@[simp] theorem tookMove_status : s.tookMove.status = s.status := rfl
@[simp] theorem tookMove_events : s.tookMove.events = s.events := rfl
@[simp] theorem tookMove_moves : s.tookMove.moves = s.lined.tail := rfl
@[simp] theorem tookMove_rounds : s.tookMove.rounds = if s.moves = [] then s.rounds + 1 else s.rounds := rfl
@[simp] theorem tookMove_keyQueue : s.tookMove.keyQueue = s.keyQueue := rfl
@[simp] theorem tookMove_byteQueue : s.tookMove.byteQueue = s.byteQueue := rfl
@[simp] theorem tookMove_draws : s.tookMove.draws = s.draws := rfl

/-! ## `tookByte` -/

@[simp] theorem tookByte_v : s.tookByte.v = s.v := rfl
@[simp] theorem tookByte_i : s.tookByte.i = s.i := rfl
@[simp] theorem tookByte_pc : s.tookByte.pc = s.pc := rfl
@[simp] theorem tookByte_sp : s.tookByte.sp = s.sp := rfl
@[simp] theorem tookByte_dt : s.tookByte.dt = s.dt := rfl
@[simp] theorem tookByte_st : s.tookByte.st = s.st := rfl
@[simp] theorem tookByte_stack : s.tookByte.stack = s.stack := rfl
@[simp] theorem tookByte_mem : s.tookByte.mem = s.mem := rfl
@[simp] theorem tookByte_fb : s.tookByte.fb = s.fb := rfl
@[simp] theorem tookByte_accDt : s.tookByte.accDt = s.accDt := rfl
@[simp] theorem tookByte_accSt : s.tookByte.accSt = s.accSt := rfl
@[simp] theorem tookByte_accCpu : s.tookByte.accCpu = s.accCpu := rfl
@[simp] theorem tookByte_status : s.tookByte.status = s.status := rfl
@[simp] theorem tookByte_events : s.tookByte.events = s.events := rfl
@[simp] theorem tookByte_moves : s.tookByte.moves = s.moves := rfl
@[simp] theorem tookByte_rounds : s.tookByte.rounds = s.rounds := rfl
@[simp] theorem tookByte_keyQueue : s.tookByte.keyQueue = s.keyQueue := rfl
@[simp] theorem tookByte_byteQueue : s.tookByte.byteQueue = s.byteQueue.tail := rfl
@[simp] theorem tookByte_draws : s.tookByte.draws = if s.byteQueue = [] then s.draws + 1 else s.draws := rfl

/-! ## `setTimer` -/

@[simp] theorem setTimer_v (u : TimerUnit) (b : Byte) : (s.setTimer u b).v = s.v := by cases u <;> rfl
@[simp] theorem setTimer_i (u : TimerUnit) (b : Byte) : (s.setTimer u b).i = s.i := by cases u <;> rfl
@[simp] theorem setTimer_pc (u : TimerUnit) (b : Byte) : (s.setTimer u b).pc = s.pc := by cases u <;> rfl
@[simp] theorem setTimer_sp (u : TimerUnit) (b : Byte) : (s.setTimer u b).sp = s.sp := by cases u <;> rfl
@[simp] theorem setTimer_stack (u : TimerUnit) (b : Byte) : (s.setTimer u b).stack = s.stack := by cases u <;> rfl
@[simp] theorem setTimer_mem (u : TimerUnit) (b : Byte) : (s.setTimer u b).mem = s.mem := by cases u <;> rfl
@[simp] theorem setTimer_fb (u : TimerUnit) (b : Byte) : (s.setTimer u b).fb = s.fb := by cases u <;> rfl
@[simp] theorem setTimer_accDt (u : TimerUnit) (b : Byte) : (s.setTimer u b).accDt = s.accDt := by cases u <;> rfl
@[simp] theorem setTimer_accSt (u : TimerUnit) (b : Byte) : (s.setTimer u b).accSt = s.accSt := by cases u <;> rfl
@[simp] theorem setTimer_accCpu (u : TimerUnit) (b : Byte) : (s.setTimer u b).accCpu = s.accCpu := by cases u <;> rfl
@[simp] theorem setTimer_status (u : TimerUnit) (b : Byte) : (s.setTimer u b).status = s.status := by cases u <;> rfl
@[simp] theorem setTimer_events (u : TimerUnit) (b : Byte) : (s.setTimer u b).events = s.events := by cases u <;> rfl
@[simp] theorem setTimer_moves (u : TimerUnit) (b : Byte) : (s.setTimer u b).moves = s.moves := by cases u <;> rfl
@[simp] theorem setTimer_rounds (u : TimerUnit) (b : Byte) : (s.setTimer u b).rounds = s.rounds := by cases u <;> rfl
@[simp] theorem setTimer_keyQueue (u : TimerUnit) (b : Byte) : (s.setTimer u b).keyQueue = s.keyQueue := by cases u <;> rfl
@[simp] theorem setTimer_byteQueue (u : TimerUnit) (b : Byte) : (s.setTimer u b).byteQueue = s.byteQueue := by cases u <;> rfl
@[simp] theorem setTimer_draws (u : TimerUnit) (b : Byte) : (s.setTimer u b).draws = s.draws := by cases u <;> rfl

/-! ## `setAcc` -/

@[simp] theorem setAcc_v (u : TimerUnit) (t : Nat) : (s.setAcc u t).v = s.v := by cases u <;> rfl
@[simp] theorem setAcc_i (u : TimerUnit) (t : Nat) : (s.setAcc u t).i = s.i := by cases u <;> rfl
@[simp] theorem setAcc_pc (u : TimerUnit) (t : Nat) : (s.setAcc u t).pc = s.pc := by cases u <;> rfl
@[simp] theorem setAcc_sp (u : TimerUnit) (t : Nat) : (s.setAcc u t).sp = s.sp := by cases u <;> rfl
@[simp] theorem setAcc_dt (u : TimerUnit) (t : Nat) : (s.setAcc u t).dt = s.dt := by cases u <;> rfl
@[simp] theorem setAcc_st (u : TimerUnit) (t : Nat) : (s.setAcc u t).st = s.st := by cases u <;> rfl
@[simp] theorem setAcc_stack (u : TimerUnit) (t : Nat) : (s.setAcc u t).stack = s.stack := by cases u <;> rfl
@[simp] theorem setAcc_mem (u : TimerUnit) (t : Nat) : (s.setAcc u t).mem = s.mem := by cases u <;> rfl
@[simp] theorem setAcc_fb (u : TimerUnit) (t : Nat) : (s.setAcc u t).fb = s.fb := by cases u <;> rfl
@[simp] theorem setAcc_accCpu (u : TimerUnit) (t : Nat) : (s.setAcc u t).accCpu = s.accCpu := by cases u <;> rfl
@[simp] theorem setAcc_status (u : TimerUnit) (t : Nat) : (s.setAcc u t).status = s.status := by cases u <;> rfl
@[simp] theorem setAcc_events (u : TimerUnit) (t : Nat) : (s.setAcc u t).events = s.events := by cases u <;> rfl
@[simp] theorem setAcc_moves (u : TimerUnit) (t : Nat) : (s.setAcc u t).moves = s.moves := by cases u <;> rfl
@[simp] theorem setAcc_rounds (u : TimerUnit) (t : Nat) : (s.setAcc u t).rounds = s.rounds := by cases u <;> rfl
@[simp] theorem setAcc_keyQueue (u : TimerUnit) (t : Nat) : (s.setAcc u t).keyQueue = s.keyQueue := by cases u <;> rfl
@[simp] theorem setAcc_byteQueue (u : TimerUnit) (t : Nat) : (s.setAcc u t).byteQueue = s.byteQueue := by cases u <;> rfl
@[simp] theorem setAcc_draws (u : TimerUnit) (t : Nat) : (s.setAcc u t).draws = s.draws := by cases u <;> rfl

/-! ## `writeBack` -/

@[simp] theorem writeBack_i (x : Reg) (r : Byte × Option Bool) :
    (s.writeBack x r).i = s.i := by unfold writeBack; split <;> rfl
@[simp] theorem writeBack_pc (x : Reg) (r : Byte × Option Bool) :
    (s.writeBack x r).pc = s.pc := by unfold writeBack; split <;> rfl
@[simp] theorem writeBack_sp (x : Reg) (r : Byte × Option Bool) :
    (s.writeBack x r).sp = s.sp := by unfold writeBack; split <;> rfl
@[simp] theorem writeBack_dt (x : Reg) (r : Byte × Option Bool) :
    (s.writeBack x r).dt = s.dt := by unfold writeBack; split <;> rfl
@[simp] theorem writeBack_st (x : Reg) (r : Byte × Option Bool) :
    (s.writeBack x r).st = s.st := by unfold writeBack; split <;> rfl
@[simp] theorem writeBack_stack (x : Reg) (r : Byte × Option Bool) :
    (s.writeBack x r).stack = s.stack := by unfold writeBack; split <;> rfl
@[simp] theorem writeBack_mem (x : Reg) (r : Byte × Option Bool) :
    (s.writeBack x r).mem = s.mem := by unfold writeBack; split <;> rfl
@[simp] theorem writeBack_fb (x : Reg) (r : Byte × Option Bool) :
    (s.writeBack x r).fb = s.fb := by unfold writeBack; split <;> rfl
@[simp] theorem writeBack_accDt (x : Reg) (r : Byte × Option Bool) :
    (s.writeBack x r).accDt = s.accDt := by unfold writeBack; split <;> rfl
@[simp] theorem writeBack_accSt (x : Reg) (r : Byte × Option Bool) :
    (s.writeBack x r).accSt = s.accSt := by unfold writeBack; split <;> rfl
@[simp] theorem writeBack_accCpu (x : Reg) (r : Byte × Option Bool) :
    (s.writeBack x r).accCpu = s.accCpu := by unfold writeBack; split <;> rfl
@[simp] theorem writeBack_status (x : Reg) (r : Byte × Option Bool) :
    (s.writeBack x r).status = s.status := by unfold writeBack; split <;> rfl
@[simp] theorem writeBack_events (x : Reg) (r : Byte × Option Bool) :
    (s.writeBack x r).events = s.events := by unfold writeBack; split <;> rfl
@[simp] theorem writeBack_moves (x : Reg) (r : Byte × Option Bool) :
    (s.writeBack x r).moves = s.moves := by unfold writeBack; split <;> rfl
@[simp] theorem writeBack_rounds (x : Reg) (r : Byte × Option Bool) :
    (s.writeBack x r).rounds = s.rounds := by unfold writeBack; split <;> rfl
@[simp] theorem writeBack_keyQueue (x : Reg) (r : Byte × Option Bool) :
    (s.writeBack x r).keyQueue = s.keyQueue := by unfold writeBack; split <;> rfl
@[simp] theorem writeBack_byteQueue (x : Reg) (r : Byte × Option Bool) :
    (s.writeBack x r).byteQueue = s.byteQueue := by unfold writeBack; split <;> rfl
@[simp] theorem writeBack_draws (x : Reg) (r : Byte × Option Bool) :
    (s.writeBack x r).draws = s.draws := by unfold writeBack; split <;> rfl

/-! ## `shiftFlag` -/

@[simp] theorem shiftFlag_i (op : AluOp) (x : Reg) :
    (s.shiftFlag op x).i = s.i := by unfold shiftFlag; split <;> rfl
@[simp] theorem shiftFlag_pc (op : AluOp) (x : Reg) :
    (s.shiftFlag op x).pc = s.pc := by unfold shiftFlag; split <;> rfl
@[simp] theorem shiftFlag_sp (op : AluOp) (x : Reg) :
    (s.shiftFlag op x).sp = s.sp := by unfold shiftFlag; split <;> rfl
@[simp] theorem shiftFlag_dt (op : AluOp) (x : Reg) :
    (s.shiftFlag op x).dt = s.dt := by unfold shiftFlag; split <;> rfl
@[simp] theorem shiftFlag_st (op : AluOp) (x : Reg) :
    (s.shiftFlag op x).st = s.st := by unfold shiftFlag; split <;> rfl
@[simp] theorem shiftFlag_stack (op : AluOp) (x : Reg) :
    (s.shiftFlag op x).stack = s.stack := by unfold shiftFlag; split <;> rfl
@[simp] theorem shiftFlag_mem (op : AluOp) (x : Reg) :
    (s.shiftFlag op x).mem = s.mem := by unfold shiftFlag; split <;> rfl
@[simp] theorem shiftFlag_fb (op : AluOp) (x : Reg) :
    (s.shiftFlag op x).fb = s.fb := by unfold shiftFlag; split <;> rfl
@[simp] theorem shiftFlag_accDt (op : AluOp) (x : Reg) :
    (s.shiftFlag op x).accDt = s.accDt := by unfold shiftFlag; split <;> rfl
@[simp] theorem shiftFlag_accSt (op : AluOp) (x : Reg) :
    (s.shiftFlag op x).accSt = s.accSt := by unfold shiftFlag; split <;> rfl
@[simp] theorem shiftFlag_accCpu (op : AluOp) (x : Reg) :
    (s.shiftFlag op x).accCpu = s.accCpu := by unfold shiftFlag; split <;> rfl
@[simp] theorem shiftFlag_status (op : AluOp) (x : Reg) :
    (s.shiftFlag op x).status = s.status := by unfold shiftFlag; split <;> rfl
@[simp] theorem shiftFlag_events (op : AluOp) (x : Reg) :
    (s.shiftFlag op x).events = s.events := by unfold shiftFlag; split <;> rfl
@[simp] theorem shiftFlag_moves (op : AluOp) (x : Reg) :
    (s.shiftFlag op x).moves = s.moves := by unfold shiftFlag; split <;> rfl
@[simp] theorem shiftFlag_rounds (op : AluOp) (x : Reg) :
    (s.shiftFlag op x).rounds = s.rounds := by unfold shiftFlag; split <;> rfl
@[simp] theorem shiftFlag_keyQueue (op : AluOp) (x : Reg) :
    (s.shiftFlag op x).keyQueue = s.keyQueue := by unfold shiftFlag; split <;> rfl
@[simp] theorem shiftFlag_byteQueue (op : AluOp) (x : Reg) :
    (s.shiftFlag op x).byteQueue = s.byteQueue := by unfold shiftFlag; split <;> rfl
@[simp] theorem shiftFlag_draws (op : AluOp) (x : Reg) :
    (s.shiftFlag op x).draws = s.draws := by unfold shiftFlag; split <;> rfl

/-! ## `draw` -/

@[simp] theorem draw_i (cx cy : Byte) (rows : List Byte) :
    (s.draw cx cy rows).i = s.i := rfl
@[simp] theorem draw_pc (cx cy : Byte) (rows : List Byte) :
    (s.draw cx cy rows).pc = s.pc := rfl
@[simp] theorem draw_sp (cx cy : Byte) (rows : List Byte) :
    (s.draw cx cy rows).sp = s.sp := rfl
@[simp] theorem draw_dt (cx cy : Byte) (rows : List Byte) :
    (s.draw cx cy rows).dt = s.dt := rfl
@[simp] theorem draw_st (cx cy : Byte) (rows : List Byte) :
    (s.draw cx cy rows).st = s.st := rfl
@[simp] theorem draw_stack (cx cy : Byte) (rows : List Byte) :
    (s.draw cx cy rows).stack = s.stack := rfl
@[simp] theorem draw_mem (cx cy : Byte) (rows : List Byte) :
    (s.draw cx cy rows).mem = s.mem := rfl
@[simp] theorem draw_accDt (cx cy : Byte) (rows : List Byte) :
    (s.draw cx cy rows).accDt = s.accDt := rfl
@[simp] theorem draw_accSt (cx cy : Byte) (rows : List Byte) :
    (s.draw cx cy rows).accSt = s.accSt := rfl
@[simp] theorem draw_accCpu (cx cy : Byte) (rows : List Byte) :
    (s.draw cx cy rows).accCpu = s.accCpu := rfl
@[simp] theorem draw_status (cx cy : Byte) (rows : List Byte) :
    (s.draw cx cy rows).status = s.status := rfl
@[simp] theorem draw_moves (cx cy : Byte) (rows : List Byte) :
    (s.draw cx cy rows).moves = s.moves := rfl
@[simp] theorem draw_rounds (cx cy : Byte) (rows : List Byte) :
    (s.draw cx cy rows).rounds = s.rounds := rfl
@[simp] theorem draw_keyQueue (cx cy : Byte) (rows : List Byte) :
    (s.draw cx cy rows).keyQueue = s.keyQueue := rfl
@[simp] theorem draw_byteQueue (cx cy : Byte) (rows : List Byte) :
    (s.draw cx cy rows).byteQueue = s.byteQueue := rfl
@[simp] theorem draw_draws (cx cy : Byte) (rows : List Byte) :
    (s.draw cx cy rows).draws = s.draws := rfl

/-! ## The units' registers and accumulators -/

@[simp] theorem setTimer_timer (u : TimerUnit) (b : Byte) : (s.setTimer u b).timer u = b := by cases u <;> rfl

@[simp] theorem setTimer_acc (u w : TimerUnit) (b : Byte) : (s.setTimer u b).acc w = s.acc w := by
  cases u <;> cases w <;> rfl

@[simp] theorem setAcc_timer (u w : TimerUnit) (t : Nat) : (s.setAcc u t).timer w = s.timer w := by
  cases u <;> cases w <;> rfl

@[simp] theorem setAcc_acc (u : TimerUnit) (t : Nat) : (s.setAcc u t).acc u = t := by cases u <;> rfl

/-- A unit's write leaves the other unit's register alone (spec/60_exceptions.md R214). -/
theorem setTimer_timer_ne {u w : TimerUnit} (h : w ≠ u) (b : Byte) : (s.setTimer u b).timer w = s.timer w := by
  cases u <;> cases w <;> first | rfl | exact absurd rfl h

/-- A unit's update leaves the other unit's accumulator alone (spec/60_exceptions.md R214). -/
theorem setAcc_acc_ne {u w : TimerUnit} (h : w ≠ u) (t : Nat) : (s.setAcc u t).acc w = s.acc w := by
  cases u <;> cases w <;> first | rfl | exact absurd rfl h

/-! ## Registers read after an update -/

theorem reg_setReg (x y : Reg) (b : Byte) : (s.setReg x b).reg y = if y = x then b else s.reg y := by
  simp only [reg, setReg_v, Fin.getElem_fin, Vector.getElem_set, Fin.ext_iff, eq_comm]

@[simp] theorem reg_setReg_self (x : Reg) (b : Byte) : (s.setReg x b).reg x = b := by simp [reg_setReg]

theorem reg_setReg_ne {x y : Reg} (h : y ≠ x) (b : Byte) : (s.setReg x b).reg y = s.reg y := by
  simp [reg_setReg, h]

@[simp] theorem reg_setI (w : Word) (x : Reg) : (s.setI w).reg x = s.reg x := rfl
@[simp] theorem reg_setPc (w : Word) (x : Reg) : (s.setPc w).reg x = s.reg x := rfl
@[simp] theorem reg_setSp (b : BitVec 8) (x : Reg) : (s.setSp b).reg x = s.reg x := rfl
@[simp] theorem reg_setSlot (k : Fin 16) (w : Word) (x : Reg) : (s.setSlot k w).reg x = s.reg x := rfl
@[simp] theorem reg_setDt (b : Byte) (x : Reg) : (s.setDt b).reg x = s.reg x := rfl
@[simp] theorem reg_setSt (b : Byte) (x : Reg) : (s.setSt b).reg x = s.reg x := rfl
@[simp] theorem reg_setMem (m : Memory) (x : Reg) : (s.setMem m).reg x = s.reg x := rfl
@[simp] theorem reg_setFb (fb : Framebuffer) (x : Reg) : (s.setFb fb).reg x = s.reg x := rfl
@[simp] theorem reg_emit (e : Event) (x : Reg) : (s.emit e).reg x = s.reg x := rfl
@[simp] theorem reg_setStatus (r : RunStatus) (x : Reg) : (s.setStatus r).reg x = s.reg x := rfl
@[simp] theorem reg_takeFault (f : Fault) (x : Reg) : (s.takeFault f).reg x = s.reg x := rfl
@[simp] theorem reg_setMoves (ms : List Move) (x : Reg) : (s.setMoves ms).reg x = s.reg x := rfl
@[simp] theorem reg_setAccCpu (t : Nat) (x : Reg) : (s.setAccCpu t).reg x = s.reg x := rfl
@[simp] theorem reg_tookKeys (x : Reg) : s.tookKeys.reg x = s.reg x := rfl
@[simp] theorem reg_tookMove (x : Reg) : s.tookMove.reg x = s.reg x := rfl
@[simp] theorem reg_tookByte (x : Reg) : s.tookByte.reg x = s.reg x := rfl

end Sys2Proof.Machine.State
end

