-- ==== Sys2Proof/Laws/Ops.lean ====
section
/-! SUPPORT. One lemma per shared operation: everything it can answer. -/

namespace Sys2Proof.Machine

/-! ## Outcomes (spec/00_scope.md R12) -/

@[simp] theorem advance_eq (s : State) : advance s = .next (s.setPc (s.pc + 2)) := rfl

@[simp] theorem redirect_eq (s : State) (w : Word) : redirect s w = .next (s.setPc w) := rfl

@[simp] theorem retry_eq (s : State) : retry s = .next s := rfl

@[simp] theorem raise_eq (f : Fault) : raise f = .fault f := rfl

/-- The skip mechanism: 4 past the instruction when the condition holds, else 2 past it (spec/40_control_flow.md R105). -/
theorem skipIf_eq (c : Bool) (s : State) : skipIf c s = .next (s.setPc (s.pc + if c then 4 else 2)) := by
  cases c
  · rfl
  · simp only [skipIf, advance_eq, nextPc, if_pos, State.setPc_pc, BitVec.add_assoc]
    rfl

/-! ## Register file -/

theorem getElem_loadRegs (v : Vector Byte 16) (bs : List Byte) (k : Fin 16) : (loadRegs v bs)[k] = bs.getD k v[k] := by
  simp [loadRegs]

@[simp] theorem length_regsUpTo (s : State) (x : Reg) : (s.regsUpTo x).length = x.val + 1 := by
  have := x.isLt
  simp only [State.regsUpTo, List.length_take, Vector.length_toList]
  omega

theorem getElem?_regsUpTo (s : State) (x k : Reg) (h : k ≤ x) : (s.regsUpTo x)[k.val]? = some (s.reg k) := by
  have : k.val < x.val + 1 := Nat.lt_succ_of_le h
  simp [State.regsUpTo, this, State.reg]

/-! ## Stack slots and indices -/

theorem slotOf_eq_some {sp : BitVec 8} {k : Fin 16} : slotOf sp = some k ↔ sp.toNat = k.val := by
  unfold slotOf
  split
  · simp [Fin.ext_iff]
  · have := k.isLt
    simp only [reduceCtorEq, false_iff]
    omega

theorem slotOf_eq_none {sp : BitVec 8} : slotOf sp = none ↔ 16 ≤ sp.toNat := by
  unfold slotOf
  split <;> simp <;> omega

/-- `SP` as a signed number, by the half its bits lie in. -/
theorem sp_toInt (b : BitVec 8) :
    (b.toNat < 128 → b.toInt = b.toNat) ∧ (128 ≤ b.toNat → b.toInt = b.toNat - 256) := by
  rw [BitVec.toInt_eq_toNat_cond]
  constructor <;> intro h <;> split <;> omega

theorem sp_succ (b : BitVec 8) : (b + 1).toNat = (b.toNat + 1) % 256 := BitVec.toNat_add b 1

theorem sp_pred (b : BitVec 8) : (b - 1).toNat = (b.toNat + 255) % 256 := by
  rw [BitVec.toNat_sub, Nat.add_comm]
  rfl

theorem index16_eq_some {b : Byte} {k : Fin 16} : index16 b = some k ↔ b.toNat = k.val := by
  unfold index16
  split
  · simp [Fin.ext_iff]
  · have := k.isLt
    simp only [reduceCtorEq, false_iff]
    omega

theorem index16_eq_none {b : Byte} : index16 b = none ↔ 16 ≤ b.toNat := by
  unfold index16
  split <;> simp <;> omega

/-! ## Write-back of the ALU (spec/41_alu.md R122) -/

theorem writeBack_none {s : State} {x : Reg} {r : Byte × Option Bool} (h : r.2 = none) :
    s.writeBack x r = s.setReg x r.1 := by
  simp [State.writeBack, h]

theorem writeBack_some {s : State} {x : Reg} {r : Byte × Option Bool} {f : Bool} (h : r.2 = some f) :
    s.writeBack x r = (s.setReg x r.1).setFlag f := by
  simp [State.writeBack, h]

/-- A shift operation always has a flag: the bit shifted out. -/
theorem shiftFlag_shr (s : State) (x : Reg) : s.shiftFlag .shr x = s.setFlag ((s.reg x).getLsbD 0) := rfl

theorem shiftFlag_shl (s : State) (x : Reg) : s.shiftFlag .shl x = s.setFlag ((s.reg x).getLsbD 7) := rfl

/-! ## Stores at `I` (spec/20_memory.md R52) -/

/-- A store at `I` either writes the whole run and advances, or faults with nothing written. -/
theorem storeAtI_cases (bs : List Byte) (s : State) :
    (s.i.toNat + bs.length - 1 < Params.memSize ∧
      storeAtI bs s = .next ((s.setMem (memPutRun s.mem s.i.toNat bs)).setPc (s.pc + 2))) ∨
    (Params.memSize ≤ s.i.toNat + bs.length - 1 ∧ storeAtI bs s = .fault (.outOfBounds .write s.pc s.i)) := by
  unfold storeAtI
  split
  · rename_i f h
    obtain ⟨hb, rfl⟩ := writeBytes_error.mp h
    exact .inr ⟨hb, rfl⟩
  · rename_i t h
    obtain ⟨hb, rfl⟩ := writeBytes_ok.mp h
    exact .inl ⟨hb, rfl⟩

/-- A store at `I` that gives a next state wrote the whole run and advanced. -/
theorem storeAtI_next {bs : List Byte} {s t : State} (h : storeAtI bs s = .next t) :
    s.i.toNat + bs.length - 1 < Params.memSize ∧ t = (s.setMem (memPutRun s.mem s.i.toNat bs)).setPc (s.pc + 2) := by
  rcases storeAtI_cases bs s with ⟨hb, e⟩ | ⟨_, e⟩ <;> rw [e] at h <;> cases h
  exact ⟨hb, rfl⟩

/-- The store at `I` as one choice. -/
theorem storeAtI_eq (bs : List Byte) (s : State) :
    storeAtI bs s =
      if Params.memSize ≤ s.i.toNat + bs.length - 1 then .fault (.outOfBounds .write s.pc s.i)
      else .next ((s.setMem (memPutRun s.mem s.i.toNat bs)).setPc (s.pc + 2)) := by
  rcases storeAtI_cases bs s with ⟨h, e⟩ | ⟨h, e⟩
  · rw [e, if_neg (Nat.not_le_of_lt h)]
  · rw [e, if_pos h]

/-! ## The key wait (spec/44_keypad_timer_access.md R182) -/

/-- The key wait as the spec's two outcomes. -/
theorem execLdVxK_eq (x : Reg) (s : State) :
    execLdVxK x s =
      match lowestKey s.keys with
      | none => retry s.tookKeys
      | some k => advance (s.tookKeys.setReg x (keyByte k)) := by
  unfold execLdVxK State.keyWait
  cases lowestKey s.keys <;> rfl

/-! ## Framebuffer (spec/10_state.md R33, spec/43_display.md R171) -/

@[simp] theorem pixel_clear (x : Fin 64) (y : Fin 32) : pixel clearFramebuffer x y = false := by
  simp [pixel, clearFramebuffer]

theorem pixel_setPixel (fb : Framebuffer) (x p : Fin 64) (y q : Fin 32) (b : Bool) :
    pixel (setPixel fb x y b) p q = if p = x ∧ q = y then b else pixel fb p q := by
  simp only [pixel, setPixel, Fin.getElem_fin, Vector.getElem_set, Fin.ext_iff]
  by_cases hy : y.val = q.val
  · by_cases hx : x.val = p.val
    · simp [hx, hy]
    · simp [hy, Ne.symm hx, hx]
  · simp [Ne.symm hy, hy]

/-- Two framebuffers with the same pixels are equal. -/
theorem framebuffer_ext {f g : Framebuffer} (h : ∀ x y, pixel f x y = pixel g x y) : f = g := by
  ext y hy x hx
  exact h ⟨x, hx⟩ ⟨y, hy⟩

theorem pixel_foldl_toggle (ps : List (Fin 64 × Fin 32)) (hn : ps.Nodup) (d : Framebuffer × Bool) (x : Fin 64)
    (y : Fin 32) : pixel (ps.foldl togglePixel d).1 x y = (pixel d.1 x y ^^ decide ((x, y) ∈ ps)) := by
  induction ps generalizing d with
  | nil => simp
  | cons p ps ih =>
    obtain ⟨hp, hn⟩ := List.nodup_cons.mp hn
    rw [List.foldl_cons, ih hn]
    simp only [togglePixel, pixel_setPixel, List.mem_cons]
    by_cases h : x = p.1 ∧ y = p.2
    · have : (x, y) = p := Prod.ext h.1 h.2
      simp [h, hp]
    · have : (x, y) ≠ p := fun e => h ⟨congrArg Prod.fst e, congrArg Prod.snd e⟩
      simp [h, this]

theorem collision_foldl_toggle (ps : List (Fin 64 × Fin 32)) (hn : ps.Nodup) (d : Framebuffer × Bool) :
    (ps.foldl togglePixel d).2 = (d.2 || ps.any fun p => pixel d.1 p.1 p.2) := by
  induction ps generalizing d with
  | nil => simp
  | cons p ps ih =>
    obtain ⟨hp, hn⟩ := List.nodup_cons.mp hn
    rw [List.foldl_cons, ih hn, List.any_cons, ← Bool.or_assoc]
    congr 1
    rw [Bool.eq_iff_iff, List.any_eq_true, List.any_eq_true]
    refine exists_congr fun q => and_congr_right fun hq => ?_
    have : ¬(q.1 = p.1 ∧ q.2 = p.2) := fun h => hp (Prod.ext h.1 h.2 ▸ hq)
    simp only [togglePixel, pixel_setPixel, if_neg this]

/-- Drawing pixels none of which stands twice in the list toggles exactly those pixels. -/
theorem pixel_drawPixels {ps : List (Fin 64 × Fin 32)} (hn : ps.Nodup) (fb : Framebuffer) (x : Fin 64) (y : Fin 32) :
    pixel (drawPixels fb ps).1 x y = (pixel fb x y ^^ decide ((x, y) ∈ ps)) :=
  pixel_foldl_toggle ps hn (fb, false) x y

/-- The collision flag: some drawn pixel was set before. -/
theorem collision_drawPixels {ps : List (Fin 64 × Fin 32)} (hn : ps.Nodup) (fb : Framebuffer) :
    (drawPixels fb ps).2 = ps.any fun p => pixel fb p.1 p.2 := by
  simpa only [drawPixels, Bool.false_or] using collision_foldl_toggle ps hn (fb, false)

end Sys2Proof.Machine
end

