-- ==== Sys2Proof/WellFormed.lean ====
section
/-! DEFINITION. Which instructions lie in the domain the spec states for their operands. Field widths are in the types;
the one operand domain narrower than its field is the sprite height (spec/43_display.md R171: "0 < N ≤ 15"). -/

namespace Sys2Proof

/-- The operands lie in the domain the spec states. `DRW Vx,Vy,0` decodes (spec/30_encoding.md R76) and faults
`Unmodelled(SpriteHeightZero)` when it executes (R171); it is the one ill-formed instruction (log entry 14). -/
def Instr.wellFormed : Instr → Bool
  | .drw _ _ n => n != 0
  | .cls | .ret | .jp _ | .call _ | .seK _ _ | .sneK _ _ | .seV _ _ | .ldK _ _ | .addK _ _ | .ldV _ _
  | .orV _ _ | .andV _ _ | .xorV _ _ | .addV _ _ | .sub _ _ | .shr _ _ | .subn _ _ | .shl _ _ | .sneV _ _
  | .ldI _ | .jpV0 _ | .rnd _ _ | .skp _ | .sknp _ | .ldVxDt _ | .ldVxK _ | .ldDtVx _ | .ldStVx _
  | .addI _ | .ldF _ | .ldB _ | .ldMemVx _ | .ldVxMem _ => true

end Sys2Proof
end

