-- ==== Sys2Proof/Laws/PerInstr.lean ====
section
/-! SUPPORT. What holds of every instruction as syntax, one lemma per constructor: its encoded word is one of its row of
spec/opcode_table.json. -/

namespace Sys2Proof.Laws.TableRow

/-- The mask and the match of the instruction's row in spec/opcode_table.json. -/
def row : Instr → Word × Word
  | .cls => (0xFFFF, 0x00E0)
  | .ret => (0xFFFF, 0x00EE)
  | .jp _ => (0xF000, 0x1000)
  | .call _ => (0xF000, 0x2000)
  | .seK _ _ => (0xF000, 0x3000)
  | .sneK _ _ => (0xF000, 0x4000)
  | .seV _ _ => (0xF00F, 0x5000)
  | .ldK _ _ => (0xF000, 0x6000)
  | .addK _ _ => (0xF000, 0x7000)
  | .ldV _ _ => (0xF00F, 0x8000)
  | .orV _ _ => (0xF00F, 0x8001)
  | .andV _ _ => (0xF00F, 0x8002)
  | .xorV _ _ => (0xF00F, 0x8003)
  | .addV _ _ => (0xF00F, 0x8004)
  | .sub _ _ => (0xF00F, 0x8005)
  | .shr _ _ => (0xF00F, 0x8006)
  | .subn _ _ => (0xF00F, 0x8007)
  | .shl _ _ => (0xF00F, 0x800E)
  | .sneV _ _ => (0xF00F, 0x9000)
  | .ldI _ => (0xF000, 0xA000)
  | .jpV0 _ => (0xF000, 0xB000)
  | .rnd _ _ => (0xF000, 0xC000)
  | .drw _ _ _ => (0xF000, 0xD000)
  | .skp _ => (0xF0FF, 0xE09E)
  | .sknp _ => (0xF0FF, 0xE0A1)
  | .ldVxDt _ => (0xF0FF, 0xF007)
  | .ldVxK _ => (0xF0FF, 0xF00A)
  | .ldDtVx _ => (0xF0FF, 0xF015)
  | .ldStVx _ => (0xF0FF, 0xF018)
  | .addI _ => (0xF0FF, 0xF01E)
  | .ldF _ => (0xF0FF, 0xF029)
  | .ldB _ => (0xF0FF, 0xF033)
  | .ldMemVx _ => (0xF0FF, 0xF055)
  | .ldVxMem _ => (0xF0FF, 0xF065)

/-- The encoded word, under the mask of the instruction's row, is the row's match. -/
def Statement (i : Instr) : Prop := encodeWord i &&& (row i).1 = (row i).2

/-! ## The formats under their masks -/

theorem encodeA_mask (op : Nibble) (nnn : Addr) : encodeA op nnn &&& 0xF000 = op ++ (0 : Addr) := by
  rw [encodeA, show (0xF000 : Word) = BitVec.allOnes 4 ++ (0 : Addr) from rfl, BitVec.and_append, BitVec.and_allOnes,
    BitVec.ofNat_eq_ofNat, BitVec.and_zero]

theorem encodeXK_mask (op : Nibble) (x : Reg) (kk : Byte) : encodeXK op x kk &&& 0xF000 = op ++ (0 : Nibble) ++ (0 : Byte) := by
  rw [encodeXK, show (0xF000 : Word) = BitVec.allOnes 4 ++ (0 : Nibble) ++ (0 : Byte) from rfl, BitVec.and_append,
    BitVec.and_append, BitVec.and_allOnes, BitVec.ofNat_eq_ofNat, BitVec.ofNat_eq_ofNat, BitVec.and_zero, BitVec.and_zero]

theorem encodeXK_mask_low (op : Nibble) (x : Reg) (kk : Byte) : encodeXK op x kk &&& 0xF0FF = op ++ (0 : Nibble) ++ kk := by
  rw [encodeXK, show (0xF0FF : Word) = BitVec.allOnes 4 ++ (0 : Nibble) ++ BitVec.allOnes 8 from rfl, BitVec.and_append,
    BitVec.and_append, BitVec.and_allOnes, BitVec.and_allOnes, BitVec.ofNat_eq_ofNat, BitVec.and_zero]

theorem encodeXYN_mask (op : Nibble) (x y : Reg) (n : Nibble) :
    encodeXYN op x y n &&& 0xF000 = op ++ (0 : Nibble) ++ (0 : Nibble) ++ (0 : Nibble) := by
  rw [encodeXYN, show (0xF000 : Word) = BitVec.allOnes 4 ++ (0 : Nibble) ++ (0 : Nibble) ++ (0 : Nibble) from rfl,
    BitVec.and_append, BitVec.and_append, BitVec.and_append, BitVec.and_allOnes, BitVec.ofNat_eq_ofNat, BitVec.and_zero,
    BitVec.and_zero, BitVec.and_zero]

theorem encodeXYN_mask_low (op : Nibble) (x y : Reg) (n : Nibble) :
    encodeXYN op x y n &&& 0xF00F = op ++ (0 : Nibble) ++ (0 : Nibble) ++ n := by
  rw [encodeXYN, show (0xF00F : Word) = BitVec.allOnes 4 ++ (0 : Nibble) ++ (0 : Nibble) ++ BitVec.allOnes 4 from rfl,
    BitVec.and_append, BitVec.and_append, BitVec.and_append, BitVec.and_allOnes, BitVec.and_allOnes, BitVec.ofNat_eq_ofNat,
    BitVec.and_zero, BitVec.and_zero]

/-! ## One lemma per constructor -/

theorem cls : Statement (.cls) := rfl

theorem ret : Statement (.ret) := rfl

theorem jp (nnn : Addr) : Statement (.jp nnn) := encodeA_mask 0x1 nnn

theorem call (nnn : Addr) : Statement (.call nnn) := encodeA_mask 0x2 nnn

theorem seK (x : Reg) (kk : Byte) : Statement (.seK x kk) := encodeXK_mask 0x3 x kk

theorem sneK (x : Reg) (kk : Byte) : Statement (.sneK x kk) := encodeXK_mask 0x4 x kk

theorem seV (x y : Reg) : Statement (.seV x y) := encodeXYN_mask_low 0x5 x y 0x0

theorem ldK (x : Reg) (kk : Byte) : Statement (.ldK x kk) := encodeXK_mask 0x6 x kk

theorem addK (x : Reg) (kk : Byte) : Statement (.addK x kk) := encodeXK_mask 0x7 x kk

theorem ldV (x y : Reg) : Statement (.ldV x y) := encodeXYN_mask_low 0x8 x y 0x0

theorem orV (x y : Reg) : Statement (.orV x y) := encodeXYN_mask_low 0x8 x y 0x1

theorem andV (x y : Reg) : Statement (.andV x y) := encodeXYN_mask_low 0x8 x y 0x2

theorem xorV (x y : Reg) : Statement (.xorV x y) := encodeXYN_mask_low 0x8 x y 0x3

theorem addV (x y : Reg) : Statement (.addV x y) := encodeXYN_mask_low 0x8 x y 0x4

theorem sub (x y : Reg) : Statement (.sub x y) := encodeXYN_mask_low 0x8 x y 0x5

theorem shr (x y : Reg) : Statement (.shr x y) := encodeXYN_mask_low 0x8 x y 0x6

theorem subn (x y : Reg) : Statement (.subn x y) := encodeXYN_mask_low 0x8 x y 0x7

theorem shl (x y : Reg) : Statement (.shl x y) := encodeXYN_mask_low 0x8 x y 0xE

theorem sneV (x y : Reg) : Statement (.sneV x y) := encodeXYN_mask_low 0x9 x y 0x0

theorem ldI (nnn : Addr) : Statement (.ldI nnn) := encodeA_mask 0xA nnn

theorem jpV0 (nnn : Addr) : Statement (.jpV0 nnn) := encodeA_mask 0xB nnn

theorem rnd (x : Reg) (kk : Byte) : Statement (.rnd x kk) := encodeXK_mask 0xC x kk

theorem drw (x y : Reg) (n : Nibble) : Statement (.drw x y n) := encodeXYN_mask 0xD x y n

theorem skp (x : Reg) : Statement (.skp x) := encodeXK_mask_low 0xE x 0x9E

theorem sknp (x : Reg) : Statement (.sknp x) := encodeXK_mask_low 0xE x 0xA1

theorem ldVxDt (x : Reg) : Statement (.ldVxDt x) := encodeXK_mask_low 0xF x 0x07

theorem ldVxK (x : Reg) : Statement (.ldVxK x) := encodeXK_mask_low 0xF x 0x0A

theorem ldDtVx (x : Reg) : Statement (.ldDtVx x) := encodeXK_mask_low 0xF x 0x15

theorem ldStVx (x : Reg) : Statement (.ldStVx x) := encodeXK_mask_low 0xF x 0x18

theorem addI (x : Reg) : Statement (.addI x) := encodeXK_mask_low 0xF x 0x1E

theorem ldF (x : Reg) : Statement (.ldF x) := encodeXK_mask_low 0xF x 0x29

theorem ldB (x : Reg) : Statement (.ldB x) := encodeXK_mask_low 0xF x 0x33

theorem ldMemVx (x : Reg) : Statement (.ldMemVx x) := encodeXK_mask_low 0xF x 0x55

theorem ldVxMem (x : Reg) : Statement (.ldVxMem x) := encodeXK_mask_low 0xF x 0x65

end Sys2Proof.Laws.TableRow
end

