-- ==== Sys2Proof/Laws/Schedule.lean ====
section
/-! SUPPORT. Which agent moves next (spec/60_exceptions.md R220): a free round leaves no agent out and excludes no order, and
taking a move changes nothing but the schedule. -/

namespace Sys2Proof.Machine

/-! ## Free rounds -/

/-- Every agent steps in every round. -/
theorem mem_fairRound (l : List Config.Agent) (a : Config.Agent) : a ∈ fairRound l := by
  by_cases h : a ∈ l
  · exact List.mem_append_left _ h
  · refine List.mem_append_right _ (List.mem_filter.mpr ⟨?_, by simpa using h⟩)
    cases a <;> simp

/-- A round in which every agent steps is left as it is, so no fair order of steps is excluded. -/
theorem fairRound_of_forall_mem {l : List Config.Agent} (h : ∀ a, a ∈ l) : fairRound l = l := by
  simp [fairRound, h]

/-- Every agent's move stands in every free round. -/
theorem mem_freeMoves (n : Nat) (a : Config.Agent) : agentMove a ∈ freeMoves n :=
  List.mem_map_of_mem (mem_fairRound _ a)

/-- A free round is never empty. -/
theorem freeMoves_ne_nil (n : Nat) : freeMoves n ≠ [] := List.ne_nil_of_mem (mem_freeMoves n .cpu)

/-! ## Taking a move -/

/-- A move is always lined up: the next one, and those that taking it leaves. -/
theorem lined_eq (s : State) : s.lined = s.nextMove :: s.tookMove.moves := by
  have h : s.lined ≠ [] := by
    unfold State.lined
    split
    · exact freeMoves_ne_nil s.rounds
    · assumption
  obtain ⟨m, ms, e⟩ := List.exists_cons_of_ne_nil h
  rw [State.nextMove, State.tookMove_moves, e]
  rfl

/-- With a move lined up, it is the next one. -/
theorem nextMove_of_cons {s : State} {m : Move} {ms : List Move} (h : s.moves = m :: ms) : s.nextMove = m := by
  simp [State.nextMove, State.lined, h]

/-- With a move lined up, taking it leaves the others. -/
theorem tookMove_of_cons {s : State} {m : Move} {ms : List Move} (h : s.moves = m :: ms) : s.tookMove = s.setMoves ms := by
  simp [State.tookMove, State.lined, State.setMoves, h]

/-- With none lined up, the next move and the ones after it are those of the next free round. -/
theorem lined_of_nil {s : State} (h : s.moves = []) : s.lined = freeMoves s.rounds := if_pos h

end Sys2Proof.Machine
end

