-- ==== Sys2Proof/Laws/Sprite.lean ====
section
/-! SUPPORT. The pixels of a sprite (spec/43_display.md R171): which they are, and that none stands twice among them. -/

namespace Sys2Proof.Machine

theorem mem_rowPixels {cx : Nat} {py : Fin 32} {b : Byte} {p : Fin 64 × Fin 32} :
    p ∈ rowPixels cx py b ↔ ∃ c, c < 8 ∧ b.getLsbD (7 - c) = true ∧ p = (Fin.ofNat 64 (cx + c), py) := by
  simp only [rowPixels, List.mem_filterMap, List.mem_range]
  refine exists_congr fun c => and_congr_right fun _ => ?_
  split
  · rename_i h
    simp [h, eq_comm]
  · rename_i h
    simp [h]

theorem mem_spritePixels {cx cy : Nat} {rows : List Byte} {p : Fin 64 × Fin 32} :
    p ∈ spritePixels cx cy rows ↔
      ∃ r c b, rows[r]? = some b ∧ c < 8 ∧ b.getLsbD (7 - c) = true ∧ p = (Fin.ofNat 64 (cx + c), Fin.ofNat 32 (cy + r)) := by
  induction rows generalizing cy with
  | nil => simp [spritePixels]
  | cons b rows ih =>
    simp only [spritePixels, List.mem_append, mem_rowPixels, ih]
    constructor
    · rintro (⟨c, hc, hb, hp⟩ | ⟨r, c, d, hd, hc, hb, hp⟩)
      · exact ⟨0, c, b, rfl, hc, hb, hp⟩
      · exact ⟨r + 1, c, d, hd, hc, hb, by rw [hp, Nat.add_assoc, Nat.add_comm 1 r]⟩
    · rintro ⟨r, c, d, hd, hc, hb, hp⟩
      cases r with
      | zero => exact .inl ⟨c, hc, Option.some.inj hd ▸ hb, hp⟩
      | succ r => exact .inr ⟨r, c, d, hd, hc, hb, by rw [hp, Nat.add_assoc, Nat.add_comm 1 r]⟩

theorem nodup_rowPixels (cx : Nat) (py : Fin 32) (b : Byte) : (rowPixels cx py b).Nodup := by
  unfold rowPixels
  rw [List.Nodup, List.pairwise_filterMap]
  refine List.Pairwise.imp_of_mem ?_ (List.pairwise_lt_range (n := 8))
  intro c d hc hd hcd p hp q hq
  simp only [List.mem_range] at hc hd
  split at hp <;> cases hp
  split at hq <;> cases hq
  simp only [ne_eq, Prod.mk.injEq, and_true, Fin.ext_iff, Fin.ofNat]
  omega

/-- Up to 32 rows no pixel of a sprite stands twice, so a draw toggles each at most once. -/
theorem nodup_spritePixels (cx cy : Nat) (rows : List Byte) (h : rows.length ≤ 32) :
    (spritePixels cx cy rows).Nodup := by
  induction rows generalizing cy with
  | nil => exact List.nodup_nil
  | cons b rows ih =>
    simp only [List.length_cons] at h
    refine List.nodup_append.mpr ⟨nodup_rowPixels _ _ _, ih _ (by omega), fun p hp q hq e => ?_⟩
    subst e
    obtain ⟨_, _, _, rfl⟩ := mem_rowPixels.mp hp
    obtain ⟨r, _, _, hr, _, _, he⟩ := mem_spritePixels.mp hq
    have hlt := (List.getElem?_eq_some_iff.mp hr).1
    have := congrArg (fun q => q.2.val) he
    simp only [Fin.ofNat] at this
    omega

/-- The pixels of the rows read at `a`, as the spec's loops cover them. -/
theorem drawn_iff (cx cy : Nat) (m : Memory) (a n : Nat) (px : Fin 64) (py : Fin 32) :
    (px, py) ∈ spritePixels cx cy (memGetRun m a n) ↔
      ∃ r c, r < n ∧ c < 8 ∧ (memGet m (a + r)).getLsbD (7 - c) = true ∧ px.val = (cx + c) % 64 ∧ py.val = (cy + r) % 32 := by
  rw [mem_spritePixels]
  constructor
  · rintro ⟨r, c, b, hr, hc, hb, hp⟩
    rw [getElem?_memGetRun] at hr
    split at hr <;> cases hr
    exact ⟨r, c, ‹_›, hc, hb, congrArg (fun p => p.1.val) hp, congrArg (fun p => p.2.val) hp⟩
  · rintro ⟨r, c, hr, hc, hb, hx, hy⟩
    exact ⟨r, c, _, by rw [getElem?_memGetRun, if_pos hr], hc, hb, Prod.ext (Fin.ext hx) (Fin.ext hy)⟩

end Sys2Proof.Machine
end

