-- ==== Sys2Proof/Laws/Step.lean ====
section
/-! SUPPORT. What the engine, the timer units and a step can answer (spec/40_control_flow.md R100, spec/60_exceptions.md
R205, R212, R215). -/

namespace Sys2Proof.Machine

/-! ## Fetch and decode -/

theorem fetchDecode_ok {s : State} {i : Instr} :
    fetchDecode s = .ok i ↔
      s.pc.toNat + 1 < Params.memSize ∧
        decodeWord (memGet s.mem s.pc.toNat ++ memGet s.mem (s.pc.toNat + 1)) = some i := by
  unfold fetchDecode
  split
  · rename_i f h
    obtain ⟨h, -⟩ := fetch_error.mp h
    simp only [reduceCtorEq, false_iff]
    omega
  · rename_i w h
    obtain ⟨h, rfl⟩ := fetch_ok.mp h
    split <;> simp_all

theorem fetchDecode_error {s : State} {f : Fault} :
    fetchDecode s = .error f ↔
      (Params.memSize ≤ s.pc.toNat + 1 ∧ f = .outOfBounds .fetch s.pc s.pc) ∨
      (s.pc.toNat + 1 < Params.memSize ∧
        decodeWord (memGet s.mem s.pc.toNat ++ memGet s.mem (s.pc.toNat + 1)) = none ∧
        f = .illegalInstruction s.pc (memGet s.mem s.pc.toNat ++ memGet s.mem (s.pc.toNat + 1))) := by
  unfold fetchDecode
  split
  · rename_i g h
    obtain ⟨hb, rfl⟩ := fetch_error.mp h
    have : ¬ s.pc.toNat + 1 < Params.memSize := by omega
    simp only [this, false_and, or_false, hb, true_and, Except.error.injEq, eq_comm]
  · rename_i w h
    obtain ⟨h, rfl⟩ := fetch_ok.mp h
    have : ¬ Params.memSize ≤ s.pc.toNat + 1 := by omega
    simp only [this, false_and, false_or]
    split
    · rename_i hd
      simp only [hd, true_and, Except.error.injEq, eq_comm, iff_and_self]
      exact fun _ => by omega
    · rename_i hd
      simp [hd]

/-! ## The CPU step -/

/-- Everything a CPU step can answer: the fetch or the decoder faults, the instruction goes on, or it faults. -/
theorem cpuStep_next {s t : State} (h : cpuStep s = .next t) :
    (∃ f, fetchDecode s = .error f ∧ t = s.takeFault f) ∨
    (∃ i, fetchDecode s = .ok i ∧ exec i s = .next t) ∨
    (∃ i f, fetchDecode s = .ok i ∧ exec i s = .fault f ∧ t = s.takeFault f) := by
  unfold cpuStep at h
  split at h
  · rename_i f hf
    exact .inl ⟨f, hf, by simpa [settle, eq_comm] using h⟩
  · rename_i i hi
    unfold settle at h
    split at h
    · rename_i u hu
      exact .inr (.inl ⟨i, hi, by simpa [hu] using h⟩)
    · rename_i f hf
      exact .inr (.inr ⟨i, f, hi, hf, by simpa [eq_comm] using h⟩)
    · cases h

/-! ## Timer units -/

/-- A tick leaves an empty timer alone. -/
theorem timerTick_zero {u : TimerUnit} {s : State} (h : s.timer u = 0) : timerTick u s = s := by
  simp [timerTick, h]

/-- A tick takes a running timer one down, and the sound timer's tick to zero emits `AudioStop` (R215, R216). -/
theorem timerTick_pos {u : TimerUnit} {s : State} (h : s.timer u ≠ 0) :
    timerTick u s =
      if u = .sound ∧ s.timer u - 1 = 0 then (s.setTimer u (s.timer u - 1)).emit .audioStop
      else s.setTimer u (s.timer u - 1) := by
  simp only [timerTick, if_neg h, State.setTimer_timer]

@[simp] theorem timerTicks_zero (u : TimerUnit) (s : State) : timerTicks u 0 s = s := rfl

theorem timerTicks_succ (u : TimerUnit) (n : Nat) (s : State) : timerTicks u (n + 1) s = timerTicks u n (timerTick u s) :=
  rfl

/-- One tick and then `n` more. -/
theorem timerTicks_one (u : TimerUnit) (s : State) : timerTicks u 1 s = timerTick u s := rfl

/-- What ticks keep: everything but the bound register and the event history (R214). -/
theorem timerTick_keeps (u : TimerUnit) (s : State) :
    timerTick u s = { s with dt := (timerTick u s).dt, st := (timerTick u s).st, events := (timerTick u s).events } := by
  unfold timerTick
  cases u <;> simp only [] <;> split <;> try rfl
  split <;> rfl

theorem timerTicks_keeps (u : TimerUnit) (n : Nat) (s : State) :
    timerTicks u n s =
      { s with dt := (timerTicks u n s).dt, st := (timerTicks u n s).st, events := (timerTicks u n s).events } := by
  induction n generalizing s with
  | zero => rfl
  | succ n ih =>
    rw [timerTicks_succ]
    generalize hd : timerTicks u n (timerTick u s) = d
    have h1 := ih (timerTick u s)
    rw [hd, timerTick_keeps u s] at h1
    exact h1

/-- The delay unit's ticks change `DT` alone. -/
theorem timerTicks_delay (n : Nat) (s : State) :
    timerTicks .delay n s = { s with dt := (timerTicks .delay n s).dt } := by
  induction n generalizing s with
  | zero => rfl
  | succ n ih =>
    have h : timerTick .delay s = { s with dt := (timerTick .delay s).dt } := by
      unfold timerTick
      simp only []
      split <;> rfl
    rw [timerTicks_succ, ih, h]

/-- The sound unit's ticks change `ST` and the event history alone. -/
theorem timerTicks_sound (n : Nat) (s : State) :
    timerTicks .sound n s = { s with st := (timerTicks .sound n s).st, events := (timerTicks .sound n s).events } := by
  induction n generalizing s with
  | zero => rfl
  | succ n ih =>
    have h : timerTick .sound s = { s with st := (timerTick .sound s).st, events := (timerTick .sound s).events } := by
      unfold timerTick
      simp only []
      split <;> try rfl
      split <;> rfl
    rw [timerTicks_succ, ih, h]

/-- One tick takes the bound register one down, never below zero (R215). -/
theorem timer_timerTick (u : TimerUnit) (s : State) : ((timerTick u s).timer u).toNat = (s.timer u).toNat - 1 := by
  by_cases h : s.timer u = 0
  · rw [timerTick_zero h, h]
    rfl
  · have hpos : (s.timer u).toNat ≠ 0 := fun e => h (BitVec.eq_of_toNat_eq e)
    have hsub : (s.timer u - 1).toNat = (s.timer u).toNat - 1 := by
      rw [sp_pred]
      have := (s.timer u).isLt
      omega
    rw [timerTick_pos h]
    split <;> cases u <;> exact hsub

/-- `n` ticks take the bound register `n` down, never below zero (R212, R215). -/
theorem timer_timerTicks (u : TimerUnit) (n : Nat) (s : State) :
    ((timerTicks u n s).timer u).toNat = (s.timer u).toNat - n := by
  induction n generalizing s with
  | zero => rfl
  | succ n ih =>
    rw [timerTicks_succ, ih, timer_timerTick]
    omega

theorem acc_timerTicks (u w : TimerUnit) (n : Nat) (s : State) : (timerTicks u n s).acc w = s.acc w := by
  rw [timerTicks_keeps]
  cases w <;> rfl

/-- The loop of R212 stops when less than one period is in the accumulator. -/
theorem timerUpdate_short {u : TimerUnit} {delta : Nat} {s : State} (h : s.acc u + delta < Params.timerPeriod) :
    timerUpdate u delta s = s.setAcc u (s.acc u + delta) := by
  simp [timerUpdate, Nat.div_eq_of_lt h, Nat.mod_eq_of_lt h]

/-! ## A step -/

/-- Nothing steps when the machine does not run (spec/10_state.md R35). -/
theorem step_next_running {s t : State} (h : step s = .next t) : s.status = .running ∧ runStep s = .next t := by
  unfold step machineStep at h
  split at h
  · exact ⟨‹_›, h⟩
  · cases h
  · cases h

/-- While the machine runs, its next move is the step. -/
theorem step_move {s : State} (hr : s.status = .running) : step s = perform s.nextMove s.tookMove := by
  simp only [step, machineStep, hr, runStep]

/-- While the machine runs and the CPU moves next, the CPU's step is the step. -/
theorem step_cpu {s : State} (hr : s.status = .running) (hc : s.nextMove = .cpu) : step s = cpuStep s.tookMove := by
  rw [step_move hr, hc]
  rfl

/-- Everything a step can be: the next move, while the machine runs. -/
theorem step_next {s t : State} (h : step s = .next t) :
    s.status = .running ∧ perform s.nextMove s.tookMove = .next t :=
  step_next_running h

end Sys2Proof.Machine
end

