-- ==== Sys2Proof/Tests/Slice0.lean ====
section
/-! SUPPORT. The model's own tests: words written bit by bit from the spec's formats, the vectors of
spec/95_test_vectors.md (each test names its vector), and for each statement with hypotheses a state that meets them. -/

namespace Sys2Proof.Tests

open Sys2Proof.Machine

/-! ## Helpers -/

/-- The reset state with some registers loaded. -/
def regs (l : List (Reg × Byte)) : State := l.foldl (fun s p => s.setReg p.1 p.2) State.reset

/-- The state with some bytes placed from an address on. -/
def bytes (a : Nat) (bs : List Byte) (s : State) : State := s.setMem (memPutRun s.mem a bs)

/-- The state one step leaves, with `w` placed at `PC`. -/
def after (w : Nat) (s : State) : Option State :=
  match step (s.withFetchWord 16 w) with
  | .next t => some t
  | .fault _ => none
  | .refused _ => none

/-- The state one move of the environment leaves. -/
def afterMove (m : Move) (s : State) : Option State :=
  match step (s.setMoves [m]) with
  | .next t => some t
  | .fault _ => none
  | .refused _ => none

/-- A keyboard snapshot with some keys pressed. -/
def pressed (ks : List (Fin 16)) : Config.KeySnapshot := Vector.ofFn fun k => ks.contains k

/-- The state with one keyboard snapshot lined up. -/
def withKeys (ks : List (Fin 16)) (s : State) : State := { s with keyQueue := [pressed ks] }

/-- The pixels set, in row order. -/
def setPixels (fb : Framebuffer) : List (Nat × Nat) :=
  (List.finRange 32).flatMap fun y => (List.finRange 64).filterMap fun x =>
    if pixel fb x y then some (x.val, y.val) else none

/-! ## Well-formedness: the one check, with a term it refuses -/

theorem test_drw_height_zero_is_ill_formed : (Instr.drw 0 1 0).wellFormed = false := rfl

theorem test_drw_height_is_well_formed : (Instr.drw 0 1 1).wellFormed = true ∧ (Instr.drw 0 1 15).wellFormed = true ∧ Instr.cls.wellFormed = true := by decide

/-! ## Decoding: `op x y n`, `op x kk` and `op nnn` written bit by bit (spec/30_encoding.md R72, R75 to R80) -/

theorem test_decode_cls : decodeWord 0b0000_0000_1110_0000 = some .cls := rfl

theorem test_decode_ret : decodeWord 0b0000_0000_1110_1110 = some .ret := rfl

theorem test_decode_jp : decodeWord 0b0001_1010_1011_1100 = some (.jp 0xABC) := rfl

theorem test_decode_call : decodeWord 0b0010_0011_0000_0001 = some (.call 0x301) := rfl

theorem test_decode_seK : decodeWord 0b0011_0001_0001_0000 = some (.seK 1 0x10) := rfl

theorem test_decode_sneK : decodeWord 0b0100_0010_1000_0001 = some (.sneK 2 0x81) := rfl

theorem test_decode_seV : decodeWord 0b0101_0010_0011_0000 = some (.seV 2 3) := rfl

theorem test_decode_ldK : decodeWord 0b0110_1010_0010_1011 = some (.ldK 10 0x2B) := rfl

theorem test_decode_addK : decodeWord 0b0111_1111_0000_0010 = some (.addK 15 2) := rfl

theorem test_decode_ldV : decodeWord 0b1000_0001_0011_0000 = some (.ldV 1 3) := rfl

theorem test_decode_orV : decodeWord 0b1000_0100_0101_0001 = some (.orV 4 5) := rfl

theorem test_decode_andV : decodeWord 0b1000_0110_0111_0010 = some (.andV 6 7) := rfl

theorem test_decode_xorV : decodeWord 0b1000_1000_1001_0011 = some (.xorV 8 9) := rfl

theorem test_decode_addV : decodeWord 0b1000_0001_0010_0100 = some (.addV 1 2) := rfl

theorem test_decode_sub : decodeWord 0b1000_1010_1011_0101 = some (.sub 10 11) := rfl

theorem test_decode_shr : decodeWord 0b1000_0100_0111_0110 = some (.shr 4 7) := rfl

theorem test_decode_subn : decodeWord 0b1000_1100_1101_0111 = some (.subn 12 13) := rfl

theorem test_decode_shl : decodeWord 0b1000_0100_0000_1110 = some (.shl 4 0) := rfl

theorem test_decode_sneV : decodeWord 0b1001_0010_0011_0000 = some (.sneV 2 3) := rfl

theorem test_decode_ldI : decodeWord 0b1010_0011_0000_0000 = some (.ldI 0x300) := rfl

theorem test_decode_jpV0 : decodeWord 0b1011_1111_1111_1111 = some (.jpV0 0xFFF) := rfl

theorem test_decode_rnd : decodeWord 0b1100_0011_0000_1111 = some (.rnd 3 0x0F) := rfl

theorem test_decode_drw : decodeWord 0b1101_1011_1100_0101 = some (.drw 11 12 5) := rfl

theorem test_decode_skp : decodeWord 0b1110_0001_1001_1110 = some (.skp 1) := rfl

theorem test_decode_sknp : decodeWord 0b1110_0001_1010_0001 = some (.sknp 1) := rfl

theorem test_decode_ldVxDt : decodeWord 0b1111_0011_0000_0111 = some (.ldVxDt 3) := rfl

theorem test_decode_ldVxK : decodeWord 0b1111_0010_0000_1010 = some (.ldVxK 2) := rfl

theorem test_decode_ldDtVx : decodeWord 0b1111_0011_0001_0101 = some (.ldDtVx 3) := rfl

theorem test_decode_ldStVx : decodeWord 0b1111_0100_0001_1000 = some (.ldStVx 4) := rfl

theorem test_decode_addI : decodeWord 0b1111_0010_0001_1110 = some (.addI 2) := rfl

theorem test_decode_ldF : decodeWord 0b1111_0000_0010_1001 = some (.ldF 0) := rfl

theorem test_decode_ldB : decodeWord 0b1111_0101_0011_0011 = some (.ldB 5) := rfl

theorem test_decode_ldMemVx : decodeWord 0b1111_0011_0101_0101 = some (.ldMemVx 3) := rfl

theorem test_decode_ldVxMem : decodeWord 0b1111_0011_0110_0101 = some (.ldVxMem 3) := rfl

/-- Vectors V5 to V8. -/
theorem test_decode_illegal : decodeWord 0x5121 = none ∧ decodeWord 0x0123 = none ∧ decodeWord 0x00E1 = none ∧
    decodeWord 0x8008 = none ∧ decodeWord 0x800F = none ∧ decodeWord 0x9121 = none := by decide

/-- Vector V9. -/
theorem test_decode_illegal_low_byte : decodeWord 0xE09F = none ∧ decodeWord 0xF000 = none ∧ decodeWord 0xF0FF = none := by decide

theorem test_decode_bytes : decode [0xDB, 0xC5, 0x12] = .ok (.drw 11 12 5, [0x12]) ∧ decode [0x00] = .error .truncated := by decide

theorem test_encode_bytes : encode (.drw 11 12 5) = [0xDB, 0xC5] ∧ encode (.jp 0xABC) = [0x1A, 0xBC] := by decide

theorem test_decode_table_word : decodeTableWord 16 0xDBC5 = some (.drw 11 12 5) ∧ decodeTableWord 16 0x00E1 = none := by decide

/-! ## One step each (spec/95_test_vectors.md) -/

/-- Vector V4. -/
theorem test_fetch_odd : (after 0x6107 { State.reset with pc := 0x201 }).map (fun t => (t.reg 1, t.pc)) = some (7, 0x203) := by decide

/-- Vector V2. -/
theorem test_fetch_last : (after 0x6001 { State.reset with pc := 0xFFE }).map (fun t => (t.reg 0, t.pc)) = some (1, 0x1000) := by decide

/-- Vector V3. -/
theorem test_fetch_past_end : step { State.reset with pc := 0xFFF, moves := [.cpu] } =
    .next { State.reset with pc := 0xFFF, status := .faulted (.outOfBounds .fetch 0xFFF 0xFFF) } := rfl

/-- Vectors V5, F1. -/
theorem test_illegal : (after 0x5121 State.reset).map (fun t => (t.status, t.pc)) = some (.faulted (.illegalInstruction 0x200 0x5121), 0x200) := by decide

/-- Vector D1. -/
theorem test_cls : (after 0x00E0 { State.reset with fb := setPixel clearFramebuffer 3 4 true }).map (fun t => (t.fb, t.events, t.pc)) = some (clearFramebuffer, [.displayFrame clearFramebuffer], 0x202) := by decide

/-- Vector C3. -/
theorem test_ret : (after 0x00EE { State.reset with pc := 0x300, sp := 0, stack := State.reset.stack.set 0 0x200 }).map (fun t => (t.pc, t.sp, t.stack[0])) = some (0x202, -1, 0x200) := by decide

/-- Vector C5. -/
theorem test_ret_empty : (after 0x00EE { State.reset with pc := 0x250 }).map (fun t => (t.status, t.pc, t.sp)) = some (.faulted (.outOfBounds .stackUnderflow 0x250 0x250), 0x250, -1) := by decide

/-- Vector C1. -/
theorem test_jp : (after 0x1ABC State.reset).map (fun t => t.pc) = some 0xABC := by decide

/-- Vector C2. -/
theorem test_call : (after 0x2300 State.reset).map (fun t => (t.sp, t.stack[0], t.pc)) = some (0, 0x200, 0x300) := by decide

/-- Vector C4. -/
theorem test_call_full : (after 0x2300 { State.reset with pc := 0x250, sp := 15 }).map (fun t => (t.status, t.pc, t.sp)) = some (.faulted (.outOfBounds .stackOverflow 0x250 0x250), 0x250, 15) := by decide

/-- Vector C10. -/
theorem test_seK : (after 0x3110 (regs [(1, 0x10)])).map (fun t => t.pc) = some 0x204 := by decide

/-- Vector C10. -/
theorem test_seK_not : (after 0x3111 (regs [(1, 0x10)])).map (fun t => t.pc) = some 0x202 := by decide

/-- Vector C11. -/
theorem test_sneK : (after 0x4111 (regs [(1, 0x10)])).map (fun t => t.pc) = some 0x204 := by decide

/-- Vector C12. -/
theorem test_seV : (after 0x5230 (regs [(2, 7), (3, 7)])).map (fun t => t.pc) = some 0x204 := by decide

/-- Vector C13. -/
theorem test_seV_not : (after 0x5230 (regs [(2, 7), (3, 8)])).map (fun t => t.pc) = some 0x202 := by decide

/-- Vector C13. -/
theorem test_sneV : (after 0x9230 (regs [(2, 7), (3, 8)])).map (fun t => t.pc) = some 0x204 := by decide

/-- Vector L1.4. -/
theorem test_jpV0_wraps : (after 0xBFFF (regs [(0, 0xFF)])).map (fun t => t.pc) = some 0x0FE := by decide

/-- Vector A1. -/
theorem test_ldK : (after 0x6A2B State.reset).map (fun t => (t.reg 10, t.pc)) = some (0x2B, 0x202) := by decide

/-- Vector A3. -/
theorem test_addK_no_carry : (after 0x7002 (regs [(0, 0xFF), (15, 7)])).map (fun t => (t.reg 0, t.reg 15)) = some (1, 7) := by decide

/-- Vector A4. -/
theorem test_addK_flag_register : (after 0x7F01 (regs [(15, 0xFF)])).map (fun t => t.reg 15) = some 0 := by decide

/-- Vector A5. -/
theorem test_ldV : (after 0x8130 (regs [(3, 0x77)])).map (fun t => t.reg 1) = some 0x77 := by decide

/-- Vector A37. -/
theorem test_orV : (after 0x8011 (regs [(0, 0xF0), (1, 0x0F), (15, 5)])).map (fun t => (t.reg 0, t.reg 15)) = some (0xFF, 5) := by decide

/-- Vector A38. -/
theorem test_andV : (after 0x8012 (regs [(0, 0xF0), (1, 0x3C), (15, 5)])).map (fun t => (t.reg 0, t.reg 15)) = some (0x30, 5) := by decide

/-- Vector A39. -/
theorem test_xorV : (after 0x8013 (regs [(0, 0xFF), (1, 0x0F), (15, 5)])).map (fun t => (t.reg 0, t.reg 15)) = some (0xF0, 5) := by decide

/-- Vector L1.1. -/
theorem test_addV_carry : (after 0x8124 (regs [(1, 0xC8), (2, 0x64)])).map (fun t => (t.reg 1, t.reg 15)) = some (0x2C, 1) := by decide

/-- Vector A11. -/
theorem test_addV_flag_register : (after 0x8F24 (regs [(15, 0xFF), (2, 2)])).map (fun t => t.reg 15) = some 1 := by decide

/-- Vector A15. -/
theorem test_sub_borrow : (after 0x8125 (regs [(1, 3), (2, 5)])).map (fun t => (t.reg 1, t.reg 15)) = some (0xFE, 0) := by decide

/-- Vector A16. -/
theorem test_sub_equal : (after 0x8125 (regs [(1, 7), (2, 7)])).map (fun t => (t.reg 1, t.reg 15)) = some (0, 0) := by decide

/-- Vectors A25, A29. -/
theorem test_shr : (after 0x8476 (regs [(4, 5), (7, 0xFF)])).map (fun t => (t.reg 4, t.reg 15, t.reg 7)) = some (2, 1, 0xFF) := by decide

/-- Vector A30. -/
theorem test_shr_flag_register : (after 0x8F06 (regs [(15, 0xFF)])).map (fun t => t.reg 15) = some 0 := by decide

/-- Vector A21. -/
theorem test_subn : (after 0x8127 (regs [(1, 3), (2, 5)])).map (fun t => (t.reg 1, t.reg 15)) = some (2, 1) := by decide

/-- Vector A24. -/
theorem test_subn_flag_register : (after 0x8F17 (regs [(15, 0x10), (1, 1)])).map (fun t => t.reg 15) = some 0 := by decide

/-- Vector A31. -/
theorem test_shl : (after 0x840E (regs [(4, 0x81)])).map (fun t => (t.reg 4, t.reg 15)) = some (2, 1) := by decide

/-- Vector A35. -/
theorem test_shl_flag_register : (after 0x8F0E (regs [(15, 0x80)])).map (fun t => t.reg 15) = some 2 := by decide

/-- Vector M1. -/
theorem test_ldI : (after 0xA300 { State.reset with i := 0xFFFF }).map (fun t => t.i) = some 0x300 := by decide

/-- Vector A41. -/
theorem test_rnd : (after 0xC30F { State.reset with byteQueue := [0xAB] }).map (fun t => t.reg 3) = some 0x0B := by decide

/-- Vector D2. -/
theorem test_drw_corner : (after 0xDBC5 { regs [(11, 0x3E), (12, 0x1E)] with i := 0x32 }).map (fun t => (setPixels t.fb, t.reg 15)) = some ([(0, 0), (1, 0), (62, 0), (63, 0), (1, 1), (62, 1), (1, 2), (62, 2), (0, 30), (1, 30), (62, 30), (63, 30),
      (1, 31), (62, 31)], 0) := by decide

/-- Vector D5. -/
theorem test_drw_collision : (after 0xD011 (bytes 0x300 [0xC0] { State.reset with i := 0x300, fb := setPixel clearFramebuffer 0 0 true })).map (fun t => (setPixels t.fb, t.reg 15)) = some ([(1, 0)], 1) := by decide

/-- Vector K1. -/
theorem test_skp : (after 0xE19E (withKeys [5] (regs [(1, 5)]))).map (fun t => (t.pc, t.keyQueue)) = some (0x204, []) := by decide

/-- Vector K3. -/
theorem test_skp_no_key : (after 0xE19E (regs [(1, 0x10)])).map (fun t => (t.status, t.pc)) = some (.faulted (.unmodelled .keyIndex 0x200 0x10), 0x200) := by decide

/-- Vector K2. -/
theorem test_sknp : (after 0xE1A1 (withKeys [] (regs [(1, 5)]))).map (fun t => t.pc) = some 0x204 := by decide

/-- Vector K7. -/
theorem test_ldVxDt : (after 0xF307 { State.reset with dt := 0x3C }).map (fun t => t.reg 3) = some 0x3C := by decide

/-- Vector K4. -/
theorem test_ldVxK_lowest : (after 0xF20A (withKeys [9, 3] State.reset)).map (fun t => (t.reg 2, t.pc)) = some (3, 0x202) := by decide

/-- Vector K5. -/
theorem test_ldVxK_retries : (after 0xF20A (withKeys [] (regs [(2, 0x77)]))).map (fun t => (t.reg 2, t.pc)) = some (0x77, 0x200) := by decide

/-- Vector K8. -/
theorem test_ldDtVx : (after 0xF315 { regs [(3, 0x3C)] with accDt := 9 }).map (fun t => (t.dt, t.accDt, t.events)) = some (0x3C, 9, []) := by decide

/-- Vector K10. -/
theorem test_ldStVx_starts : (after 0xF418 { regs [(4, 5)] with st := 2 }).map (fun t => (t.st, t.events)) = some (5, [.audioStart]) := by decide

/-- Vector K11. -/
theorem test_ldStVx_stops : (after 0xF418 { regs [(4, 0)] with st := 0 }).map (fun t => (t.st, t.events)) = some (0, [.audioStop]) := by decide

/-- Vector M2. -/
theorem test_addI : (after 0xF21E { regs [(2, 0x10)] with i := 0x300 }).map (fun t => (t.i, t.reg 15)) = some (0x310, 0) := by decide

/-- Vector M3. -/
theorem test_addI_wraps : (after 0xF01E { regs [(0, 1)] with i := 0xFFFF }).map (fun t => t.i) = some 0 := by decide

/-- Vector M5. -/
theorem test_ldF : (after 0xF029 (regs [(0, 0x0A)])).map (fun t => t.i) = some 0x32 := by decide

/-- Vector M7. -/
theorem test_ldF_no_digit : (after 0xF029 (regs [(0, 0x10)])).map (fun t => (t.status, t.i)) = some (.faulted (.unmodelled .fontDigit 0x200 0x10), 0) := by decide

/-- Vector M8. -/
theorem test_ldB : (after 0xF533 { regs [(5, 0xFE)] with i := 0x300 }).map (fun t => memGetRun t.mem 0x300 3) = some [2, 5, 4] := by decide

/-- Vector M11. -/
theorem test_ldB_past_end : (after 0xF533 { regs [(5, 0xFF)] with i := 0xFFE }).map (fun t => t.status) = some (.faulted (.outOfBounds .write 0x200 0xFFE)) := by decide

/-- Vector L1.8. -/
theorem test_ldMemVx : (after 0xF355 { regs [(0, 0x11), (1, 0x22), (2, 0x33), (3, 0x44)] with i := 0x300 }).map (fun t => (memGetRun t.mem 0x300 4, t.i)) = some ([0x11, 0x22, 0x33, 0x44], 0x300) := by decide

/-- Vector F2. -/
theorem test_ldMemVx_past_end : (after 0xF155 { regs [(0, 1), (1, 2)] with i := 0xFFF }).map (fun t => t.status) = some (.faulted (.outOfBounds .write 0x200 0xFFF)) := by decide

/-- Vector M18. -/
theorem test_ldVxMem : (after 0xF165 (bytes 0x300 [1, 2] { regs [(2, 0x77)] with i := 0x300 })).map (fun t => (t.reg 0, t.reg 1, t.reg 2, t.i)) = some (1, 2, 0x77, 0x300) := by decide

/-- Vector M19. -/
theorem test_ldVxMem_past_end : (after 0xF165 { State.reset with i := 0xFFF }).map (fun t => t.status) = some (.faulted (.outOfBounds .read 0x200 0xFFF)) := by decide

/-! ## Timer units, loop and construction -/

/-- Vector T3. -/
theorem test_update_two_ticks : (afterMove (.update .delay 2500000000) { State.reset with dt := 5 }).map (fun t => (t.dt, t.accDt)) = some (3, 500000000) := by decide

/-- Vector L1.6. -/
theorem test_update_stops_sound_once : (afterMove (.update .sound 3000000000) { State.reset with st := 3 }).map (fun t => (t.st, t.accSt, t.events)) = some (0, 0, [.audioStop]) := by decide

/-- Vector T1. -/
theorem test_update_short : (afterMove (.update .delay 500000000) { State.reset with dt := 5 }).map (fun t => (t.dt, t.accDt)) = some (5, 500000000) := by decide

/-- spec/60_exceptions.md R227. -/
theorem test_stop_request : (afterMove .stop State.reset).map (fun t => (t.status, t.pc)) = some (.stopped, 0x200) := by decide

/-- spec/60_exceptions.md R220: a lined-up move is the next one. -/
theorem test_schedule_lined_up : (State.reset.setMoves [.tick .sound, .stop]).nextMove = .tick .sound ∧
    (State.reset.setMoves [.tick .sound, .stop]).tookMove = State.reset.setMoves [.stop] := by decide

/-- spec/60_exceptions.md R220: no agent is left out of a round. -/
theorem test_fairRound_completes : fairRound [.sound, .sound] = [.sound, .sound, .cpu, .delay] := by decide

/-- Vector Z1. -/
theorem test_construct_self_jump : (match construct [0x12, 0x00] with
    | .ok s => some (memGetRun s.mem 0x200 2, memGetRun s.mem 0 5, s.pc)
    | .error _ => none) = some ([0x12, 0x00], [0xF0, 0x90, 0x90, 0x90, 0xF0], 0x200) := by decide

/-- Vector D2: the glyph of `A`. -/
theorem test_font_digit_A : memGetRun State.reset.mem 0x32 5 = [0xF0, 0x90, 0xF0, 0x90, 0x90] := by decide

/-! ## States that meet the statements' hypotheses -/

theorem witness_EncodeOfDecode :
    decodeWord 0x8124 = some (.addV 1 2) := rfl

theorem witness_StepRunsDecodedInstruction_next :
    ∃ t, (State.reset.withFetchWord 16 0x6A2B).isRunning ∧ (State.reset.withFetchWord 16 0x6A2B).nextMove = .cpu ∧
      (State.reset.withFetchWord 16 0x6A2B).pc.toNat + 1 < 4096 ∧
      decode [memGet (State.reset.withFetchWord 16 0x6A2B).mem 0x200, memGet (State.reset.withFetchWord 16 0x6A2B).mem 0x201] =
        .ok (.ldK 10 0x2B, []) ∧
      exec (.ldK 10 0x2B) (State.reset.withFetchWord 16 0x6A2B).tookMove = .next t := ⟨_, by decide, by decide, by decide, by decide, rfl⟩

theorem witness_StepRunsDecodedInstruction_fault :
    (State.reset.withFetchWord 16 0x00EE).isRunning ∧ (State.reset.withFetchWord 16 0x00EE).nextMove = .cpu ∧
      decode [memGet (State.reset.withFetchWord 16 0x00EE).mem 0x200, memGet (State.reset.withFetchWord 16 0x00EE).mem 0x201] =
        .ok (.ret, []) ∧
      exec .ret (State.reset.withFetchWord 16 0x00EE).tookMove = .fault (.outOfBounds .stackUnderflow 0x200 0x200) := ⟨by decide, by decide, by decide, rfl⟩

theorem witness_IllegalWordFaults :
    (State.reset.withFetchWord 16 0x5121).isRunning ∧ (State.reset.withFetchWord 16 0x5121).nextMove = .cpu ∧
      illegalWord ((memGet (State.reset.withFetchWord 16 0x5121).mem 0x200).toNat * 256 +
        (memGet (State.reset.withFetchWord 16 0x5121).mem 0x201).toNat) := by decide

theorem witness_FaultCommitsNothing :
    ∃ t, (State.reset.withFetchWord 16 0x00EE).isRunning ∧ (State.reset.withFetchWord 16 0x00EE).nextMove = .cpu ∧
      step (State.reset.withFetchWord 16 0x00EE) = .next t ∧
      t.status = .faulted (.outOfBounds .stackUnderflow 0x200 0x200) := ⟨_, by decide, by decide, rfl, rfl⟩

theorem witness_NoStepUnlessRunning :
    (State.reset.setStatus .stopped).status = .stopped ∧
      (State.reset.takeFault .resourceFailure).status = .faulted .resourceFailure := by decide

theorem witness_OneEventPerStep :
    (∃ t, (State.reset.withFetchWord 16 0x00E0).nextMove = .cpu ∧ step (State.reset.withFetchWord 16 0x00E0) = .next t) ∧
      ∃ t, { State.reset with st := 1, moves := [.tick .sound] }.nextMove = .tick .sound ∧
        step { State.reset with st := 1, moves := [.tick .sound] } = .next t := ⟨⟨_, by decide, rfl⟩, ⟨_, by decide, rfl⟩⟩

theorem witness_EveryStepKeepsInv :
    State.reset.Inv ∧ ∃ t, step (State.reset.setMoves [.tick .delay]) = .next t ∧ (State.reset.setMoves [.tick .delay]).Inv := ⟨⟨by decide, by decide, by decide, by decide, by decide, trivial⟩, _, rfl,
    ⟨by decide, by decide, by decide, by decide, by decide, trivial⟩⟩

theorem witness_ConstructionGivesResetValues :
    (List.replicate 3584 (0 : Byte)).length ≤ 3584 ∧ 79 < 80 ∧ 3583 < (List.replicate 3584 (0 : Byte)).length ∧
      80 ≤ 511 ∧ (511 < 0x200 ∨ 0x200 + (List.replicate 3584 (0 : Byte)).length ≤ 511) := by
  rw [List.length_replicate]
  omega

theorem witness_OversizedProgramFailsConstruction :
    3584 < (List.replicate 3585 (0 : Byte)).length ∧ (List.replicate 3584 (0 : Byte)).length ≤ 3584 := by
  rw [List.length_replicate, List.length_replicate]
  omega

theorem witness_GeneralRegisterFrame :
    ∃ t, exec (.drw 0 1 1) State.reset = .next t ∧ writesReg (.drw 0 1 1) 14 = false := ⟨_, rfl, rfl⟩

theorem witness_SpecialRegisterFrame :
    ∃ t, exec (.call 0x300) State.reset = .next t ∧ ¬ writesI (.call 0x300) ∧
      (((5 : Fin 16).val : Int) ≠ State.reset.sp.toInt + 1) ∧ (∀ x, Instr.call 0x300 ≠ .ldDtVx x) ∧ ∀ x, Instr.call 0x300 ≠ .ldStVx x := ⟨_, rfl, by simp, by decide, by simp, by simp⟩

theorem witness_SpecialRegisterFrame_sp :
    ∃ t, exec (.ldI 0x300) State.reset = .next t ∧ ¬ writesSp (.ldI 0x300) ∧ ∀ nnn, Instr.ldI 0x300 ≠ .call nnn := ⟨_, rfl, by simp, by simp⟩

theorem witness_MemoryFrame :
    ∃ t, exec (.ldB 5) { State.reset with i := 0xFFD } = .next t ∧
      (0xFFC < (storedRun (.ldB 5) { State.reset with i := 0xFFD }).1 ∨
        (storedRun (.ldB 5) { State.reset with i := 0xFFD }).1 + (storedRun (.ldB 5) { State.reset with i := 0xFFD }).2 ≤ 0x1000) := ⟨_, rfl, by decide⟩

theorem witness_DisplayAndHiddenFrame :
    ∃ t, exec (.ldI 0x300) State.reset = .next t ∧ ¬ writesFb (.ldI 0x300) ∧ (∀ x, Instr.ldI 0x300 ≠ .ldStVx x) ∧
      ¬ queriesKeys (.ldI 0x300) ∧ ∀ x kk, Instr.ldI 0x300 ≠ .rnd x kk := ⟨_, rfl, by simp, by simp, by simp, by simp⟩

theorem witness_SoundTimerIsNotRead :
    ∀ x, Instr.cls ≠ .ldStVx x := by simp

theorem witness_CallPushesItsAddress :
    State.reset.spLegal ∧ State.reset.sp.toInt < 15 ∧
      { State.reset with sp := 14 }.spLegal ∧ { State.reset with sp := 14 }.sp.toInt < 15 := by decide

theorem witness_ReturnGoesPastTheCall :
    (State.reset.setSp 0).sp.toInt = ((0 : Fin 16).val : Int) ∧ (State.reset.setSp 15).sp.toInt = ((15 : Fin 16).val : Int) := by decide

theorem witness_ReturnUndoesCall :
    ∃ t u, exec (.call 0x300) State.reset = .next t ∧ exec .cls t = .next u ∧ u.sp = t.sp ∧ u.stack = t.stack := ⟨_, _, rfl, rfl, rfl, rfl⟩

theorem witness_OutOfBoundsConditions_fetch :
    { State.reset with pc := 0xFFF, moves := [.cpu] }.isRunning ∧
      { State.reset with pc := 0xFFF, moves := [.cpu] }.nextMove = .cpu ∧ 4096 ≤ { State.reset with pc := 0xFFF }.pc.toNat + 1 := by decide

theorem witness_OutOfBoundsConditions_memory :
    (2 : Nibble) ≠ 0 ∧ 4096 ≤ { State.reset with i := 0xFFF }.i.toNat + (2 : Nibble).toNat - 1 ∧
      4096 ≤ { State.reset with i := 0xFFF }.i.toNat + (1 : Reg).val ∧ 4096 ≤ { State.reset with i := 0xFFE }.i.toNat + 2 := by decide

theorem witness_OutOfBoundsConditions_stack :
    { State.reset with sp := 15 }.sp.toInt = 15 ∧ State.reset.sp.toInt = -1 := by decide

theorem witness_OperandDomainFaults :
    15 < ((regs [(1, 16)]).reg 1).toNat ∧ 15 < ((regs [(1, 255)]).reg 1).toNat := by decide

theorem witness_flagRegister_and_another :
    (0 : Reg) ≠ flagReg ∧ (15 : Reg) = flagReg := by decide

theorem witness_FlagWritersAndValues :
    (∃ t, exec (.addV 15 2) State.reset = .next t) ∧ (∃ t, exec (.sub 15 1) State.reset = .next t) ∧
      (∃ t, exec (.subn 15 1) State.reset = .next t) ∧ (∃ t, exec (.shr 14 1) State.reset = .next t ∧ (14 : Reg) ≠ flagReg) ∧
      (∃ t, exec (.shl 0 1) State.reset = .next t ∧ (0 : Reg) ≠ flagReg) ∧ (∃ t, exec (.drw 0 1 15) State.reset = .next t) ∧
      ∃ t, exec (.ldK 14 7) State.reset = .next t ∧ writesReg (.ldK 14 7) flagReg = false := ⟨⟨_, rfl⟩, ⟨_, rfl⟩, ⟨_, rfl⟩, ⟨_, rfl, by decide⟩, ⟨_, rfl, by decide⟩, ⟨_, rfl⟩, ⟨_, rfl, rfl⟩⟩

theorem witness_RandomIsMasked :
    { State.reset with byteQueue := [0xAB] }.byteQueue = 0xAB :: [] ∧ State.reset.byteQueue = [] ∧ (0 : Byte) = 0 := by decide

theorem witness_FontPointer :
    ((regs [(1, 15)]).reg 1).toNat ≤ 15 := by decide

theorem witness_BcdStoresThreeDigits :
    Memory.wf { State.reset with i := 0xFFD }.mem ∧ { State.reset with i := 0xFFD }.i.toNat + 2 < 4096 := by decide

theorem witness_StoreRegisters :
    Memory.wf { State.reset with i := 0xFF0 }.mem ∧ { State.reset with i := 0xFF0 }.i.toNat + (15 : Reg).val < 4096 := by decide

theorem witness_LoadRegisters :
    { State.reset with i := 0xFFF }.i.toNat + (0 : Reg).val < 4096 := by decide

theorem witness_StoreThenLoadRoundTrip :
    ∃ t u, Memory.wf State.reset.mem ∧ exec (.ldMemVx 3) { State.reset with i := 0x300 } = .next t ∧
      u = { t with v := Vector.replicate 16 0x55 } ∧ u.mem = t.mem ∧ u.i = t.i := ⟨_, _, by decide, rfl, rfl, rfl, rfl⟩

theorem witness_StoredBytesAreFetched :
    ∃ t u, Memory.wf State.reset.mem ∧ exec (.ldMemVx 1) { State.reset with i := 0xFFE } = .next t ∧
      u = { t with pc := 0xFFE } ∧ u.mem = t.mem ∧ u.pc.toNat = 0xFFE + (0 : Reg).val ∧ (1 : Reg).val = (0 : Reg).val + 1 := ⟨_, _, by decide, rfl, rfl, rfl, rfl, rfl⟩

theorem witness_DrawTogglesCoveredPixels :
    (1 : Nibble) ≠ 0 ∧ { State.reset with i := 0xFFF }.i.toNat + (1 : Nibble).toNat - 1 < 4096 ∧
      (15 : Nibble) ≠ 0 ∧ State.reset.i.toNat + (15 : Nibble).toNat - 1 < 4096 := by decide

theorem witness_DrawTwiceRestores :
    ∃ t, (0 : Reg) ≠ flagReg ∧ (1 : Reg) ≠ flagReg ∧ exec (.drw 0 1 5) State.reset = .next t ∧ t.reg flagReg = 0 ∧
      spriteCovers (State.reset.reg 0) (State.reset.reg 1) (fun r => memGet State.reset.mem (State.reset.i.toNat + r)) 5 0 0 := ⟨_, by decide, by decide, rfl, by decide, 0, 0, by decide, by decide, by decide, by decide, by decide⟩

theorem witness_KeySkips :
    ((regs [(1, 15)]).reg 1).toNat = (15 : Fin 16).val ∧ ((regs [(1, 0)]).reg 1).toNat = (0 : Fin 16).val := by decide

theorem witness_WaitForKey_none :
    ∀ j : Fin 16, (withKeys [] State.reset).keys[j] = false := by decide

theorem witness_WaitForKey_lowest :
    (withKeys [9, 3] State.reset).keys[(3 : Fin 16)] = true ∧
      ∀ j : Fin 16, j < 3 → (withKeys [9, 3] State.reset).keys[j] = false := by decide

theorem witness_KeySnapshotIsFree :
    (∃ t, queriesKeys (.ldVxK 2) ∧ exec (.ldVxK 2) (withKeys [3] State.reset) = .next t ∧
        (withKeys [3] State.reset).keyQueue = pressed [3] :: []) ∧
      ∃ t, queriesKeys (.skp 2) ∧ exec (.skp 2) State.reset = .next t ∧ State.reset.keyQueue = [] := ⟨⟨_, .inr (.inr ⟨2, rfl⟩), rfl, rfl⟩, ⟨_, .inl ⟨2, rfl⟩, rfl, rfl⟩⟩

theorem witness_timer_moves :
    State.reset.isRunning ∧ (State.reset.setMoves [.tick .delay]).nextMove = .tick .delay ∧
      (State.reset.setMoves [.tick .sound]).nextMove = .tick .sound ∧
      (State.reset.setMoves [.update .delay 7]).nextMove = .update .delay 7 ∧
      (State.reset.setMoves [.update .sound 7]).nextMove = .update .sound 7 := by decide

theorem witness_SoundStopsOnceAtZero :
    { State.reset with st := 1 }.st = 1 ∧ 0 < { State.reset with st := 3 }.st.toNat ∧
      { State.reset with st := 3 }.st.toNat ≤ (State.reset.accSt + 3000000000) / Params.timerPeriod := by decide

theorem witness_TimerUnitsAreIndependent :
    State.reset.acc .delay = (regs [(1, 5)]).acc .delay ∧ State.reset.timer .delay = (regs [(1, 5)]).timer .delay := by decide

theorem witness_LoopIteration_stop :
    State.reset.isRunning ∧ (State.reset.setMoves [.iteration 7 true]).nextMove = .iteration 7 true ∧
      (State.reset.setMoves [.stop]).nextMove = .stop := by decide

theorem witness_LoopIteration_wait :
    (State.reset.setMoves [.iteration 0 false]).nextMove = .iteration 0 false ∧ State.reset.accCpu + 0 < Params.cpuTickPeriod := ⟨rfl, Nat.succ_pos _⟩

theorem witness_LoopIteration_step :
    ∃ s u t : State, s.isRunning ∧ s.nextMove = .iteration 0 false ∧
      u = { timerUpdate .sound 0 (timerUpdate .delay 0 s.tookMove) with accCpu := s.accCpu + 0 } ∧
      Params.cpuTickPeriod ≤ s.accCpu + 0 ∧ cpuStep u = .next t := ⟨{ State.reset with pc := 0xFFF, accCpu := Params.cpuTickPeriod, moves := [.iteration 0 false] }, _, _, rfl, rfl, rfl,
    Nat.le_refl _, rfl⟩

theorem witness_ResourceFailureIsTheHosts :
    State.reset.isRunning ∧ (State.reset.setMoves [.resourceFailure]).nextMove = .resourceFailure := by decide

/-! ## An infinite run: the self-jump of vector Z1 under the free rounds -/

/-- A machine that runs the self-jump `1200` at 0x200, with only steps of the agents lined up. -/
def selfJumping (s : State) : Prop :=
  s.status = .running ∧ s.pc = 0x200 ∧ memGet s.mem 0x200 = 0x12 ∧ memGet s.mem 0x201 = 0x00 ∧
    ∀ m ∈ s.moves, ∃ a, m = agentMove a

/-- The states of the run from `s`. -/
def runFrom (s : State) : Nat → State
  | 0 => s
  | n + 1 =>
    match step (runFrom s n) with
    | .next t => t
    | .fault _ => runFrom s n
    | .refused _ => runFrom s n

theorem selfJumping_step {s : State} (h : selfJumping s) : ∃ t, step s = .next t ∧ selfJumping t := by
  obtain ⟨hr, hpc, h0, h1, hm⟩ := h
  have hl : ∀ m ∈ s.lined, ∃ a, m = agentMove a := by
    by_cases hn : s.moves = []
    · rw [lined_of_nil hn]
      intro m hmem
      obtain ⟨a, _, rfl⟩ := List.mem_map.mp hmem
      exact ⟨a, rfl⟩
    · rwa [State.lined, if_neg hn]
  rw [lined_eq] at hl
  obtain ⟨a, ha⟩ := hl _ List.mem_cons_self
  have ht : ∀ m ∈ s.tookMove.moves, ∃ a, m = agentMove a := fun m hmem => hl m (List.mem_cons_of_mem _ hmem)
  rw [step_move hr, ha]
  have hp : s.tookMove.pc = 0x200 := hpc
  cases a with
  | cpu =>
    have hd : fetchDecode s.tookMove = .ok (.jp 0x200) := by
      rw [fetchDecode_ok, hp]
      refine ⟨by decide, ?_⟩
      show decodeWord (memGet s.mem 0x200 ++ memGet s.mem 0x201) = _
      rw [h0, h1]
      rfl
    refine ⟨s.tookMove.setPc 0x200, ?_, hr, rfl, h0, h1, ht⟩
    show cpuStep s.tookMove = _
    simp only [cpuStep, hd]
    rfl
  | delay =>
    refine ⟨_, rfl, ?_⟩
    rw [timerTick_keeps]
    exact ⟨hr, hpc, h0, h1, ht⟩
  | sound =>
    refine ⟨_, rfl, ?_⟩
    rw [timerTick_keeps]
    exact ⟨hr, hpc, h0, h1, ht⟩

theorem selfJumping_run {s : State} (h : selfJumping s) (n : Nat) :
    selfJumping (runFrom s n) ∧ step (runFrom s n) = .next (runFrom s (n + 1)) := by
  have next : ∀ {n}, selfJumping (runFrom s n) →
      selfJumping (runFrom s (n + 1)) ∧ step (runFrom s n) = .next (runFrom s (n + 1)) := by
    intro n hn
    obtain ⟨t, e, ht⟩ := selfJumping_step hn
    simp only [runFrom, e]
    exact ⟨ht, trivial⟩
  induction n with
  | zero => exact ⟨h, (next (n := 0) h).2⟩
  | succ n ih => exact ⟨(next ih.1).1, (next (next ih.1).1).2⟩

theorem witness_LoopIteration_fair : ∃ σ : Nat → State, σ 0 = State.reset.withFetchWord 16 0x1200 ∧
    ∀ n, step (σ n) = .next (σ (n + 1)) :=
  ⟨runFrom (State.reset.withFetchWord 16 0x1200), rfl, fun n => (selfJumping_run
    ⟨by decide, by decide, by decide, by decide, fun m hm => ⟨.cpu, List.mem_singleton.mp hm⟩⟩ n).2⟩

end Sys2Proof.Tests
end

section
namespace Sys2Proof.Machine

/-- Settles O9 (R35): a state with a successor is `Running`, and neither ended status is. -/
theorem noStepUnlessRunning : Obligations.NoStepUnlessRunning := by
  intro s t hended hstep
  obtain ⟨hrunning, -⟩ := step_next_running hstep
  obtain hstopped | ⟨f, hfaulted⟩ := hended
  · cases hrunning.symm.trans hstopped
  · cases hrunning.symm.trans hfaulted

end Sys2Proof.Machine
end

section
namespace Sys2Proof.Machine

/-! ## What an instruction can answer (spec/60_exceptions.md R200, R225) -/

/-- The answers an instruction may give at `s`, as to events and faults: a next state with at most one event more, or
one of the two kinds of fault that instructions raise, with the `PC` of the step. -/
inductive ExecAnswer (s : State) : Result → Prop
  | quiet {t : State} (h : t.events = s.events) : ExecAnswer s (.next t)
  | event {t : State} (e : Event) (h : t.events = s.events ++ [e]) : ExecAnswer s (.next t)
  | outOfBounds (sub : BoundsKind) (info : Word) : ExecAnswer s (.fault (.outOfBounds sub s.pc info))
  | unmodelled (sub : DomainKind) (info : Word) : ExecAnswer s (.fault (.unmodelled sub s.pc info))

theorem aluInto_answer (op : AluOp) (x : Reg) (a b : Byte) {s t : State} (h : t.events = s.events) :
    ExecAnswer s (aluInto op x a b t) :=
  .quiet ((State.writeBack_events ..).trans h)

theorem shiftInto_answer (op : AluOp) (x : Reg) (s : State) : ExecAnswer s (shiftInto op x s) :=
  .quiet (State.shiftFlag_events ..)

theorem skipIf_answer (c : Bool) {s t : State} (h : t.events = s.events) : ExecAnswer s (skipIf c t) := by
  rw [skipIf_eq]
  exact .quiet h

theorem skipOnKey_answer (x : Reg) (pressed : Bool) (s : State) : ExecAnswer s (skipOnKey x pressed s) := by
  unfold skipOnKey
  split
  · exact .unmodelled ..
  · exact skipIf_answer _ rfl

theorem storeAtI_answer (bs : List Byte) (s : State) : ExecAnswer s (storeAtI bs s) := by
  obtain ⟨-, e⟩ | ⟨-, e⟩ := storeAtI_cases bs s <;> rw [e]
  · exact .quiet rfl
  · exact .outOfBounds ..

theorem execRet_answer (s : State) : ExecAnswer s (execRet s) := by
  unfold execRet
  split
  · exact .outOfBounds ..
  · exact .quiet rfl

theorem execCall_answer (nnn : Addr) (s : State) : ExecAnswer s (execCall nnn s) := by
  unfold execCall
  split
  · exact .outOfBounds ..
  · exact .quiet rfl

theorem execDrw_answer (x y : Reg) (n : Nibble) (s : State) : ExecAnswer s (execDrw x y n s) := by
  unfold execDrw
  split
  · exact .unmodelled ..
  · split
    · obtain ⟨-, rfl⟩ := readBytes_error.mp ‹_›
      exact .outOfBounds ..
    · exact .event _ rfl

theorem execLdF_answer (x : Reg) (s : State) : ExecAnswer s (execLdF x s) := by
  unfold execLdF
  split
  · exact .unmodelled ..
  · exact .quiet rfl

theorem execLdVxMem_answer (x : Reg) (s : State) : ExecAnswer s (execLdVxMem x s) := by
  unfold execLdVxMem
  split
  · obtain ⟨-, rfl⟩ := readBytes_error.mp ‹_›
    exact .outOfBounds ..
  · exact .quiet rfl

theorem execLdVxK_answer (x : Reg) (s : State) : ExecAnswer s (execLdVxK x s) := by
  rw [execLdVxK_eq]
  split <;> exact .quiet rfl

/-- Every instruction gives one of these answers: `CLS`, `DRW` and `LD ST,Vx` are the ones with an event. -/
theorem exec_answer (i : Instr) (s : State) : ExecAnswer s (exec i s) := by
  cases i with
  | cls => exact .event _ rfl
  | drw x y n => exact execDrw_answer x y n s
  | ldStVx x => exact .event _ rfl
  | ret => exact execRet_answer s
  | call nnn => exact execCall_answer nnn s
  | ldK | addK | ldV | orV | andV | xorV | addV | sub | subn | rnd => exact aluInto_answer _ _ _ _ rfl
  | shr | shl => exact shiftInto_answer _ _ s
  | seK | sneK | seV | sneV => exact skipIf_answer _ rfl
  | skp | sknp => exact skipOnKey_answer _ _ s
  | ldB | ldMemVx => exact storeAtI_answer _ s
  | ldVxMem x => exact execLdVxMem_answer x s
  | ldF x => exact execLdF_answer x s
  | ldVxK x => exact execLdVxK_answer x s
  | jp | jpV0 | ldI | addI | ldVxDt | ldDtVx => exact .quiet rfl

/-- An instruction's next state has at most one event more. -/
theorem exec_events {i : Instr} {s t : State} (h : exec i s = .next t) :
    ∃ es : List Event, es.length ≤ 1 ∧ t.events = s.events ++ es := by
  have answer := exec_answer i s
  rw [h] at answer
  cases answer with
  | quiet h => exact ⟨[], Nat.zero_le 1, by simpa using h⟩
  | event e h => exact ⟨[e], Nat.le_refl 1, h⟩

theorem exec_ne_resourceFailure (i : Instr) (s : State) : exec i s ≠ .fault .resourceFailure := by
  intro h
  have answer := exec_answer i s
  rw [h] at answer
  cases answer

theorem fetchDecode_ne_resourceFailure (s : State) : fetchDecode s ≠ .error .resourceFailure := by
  intro h
  obtain ⟨-, hf⟩ | ⟨-, -, hf⟩ := fetchDecode_error.mp h <;> cases hf

/-- A step of the CPU appends at most one event: a fault appends none (spec/60_exceptions.md R205). -/
theorem cpuStep_events {s t : State} (h : cpuStep s = .next t) :
    ∃ es : List Event, es.length ≤ 1 ∧ t.events = s.events ++ es := by
  obtain ⟨f, -, rfl⟩ | ⟨i, -, hexec⟩ | ⟨i, f, -, -, rfl⟩ := cpuStep_next h
  · exact ⟨[], Nat.zero_le 1, (List.append_nil _).symm⟩
  · exact exec_events hexec
  · exact ⟨[], Nat.zero_le 1, (List.append_nil _).symm⟩

/-! ## What ticks and updates emit (spec/60_exceptions.md R216, R217) -/

/-- The events of `n` ticks of a unit whose register holds `b`: one `AudioStop` when they take a nonzero sound timer to
zero. -/
def stopEvents (u : TimerUnit) (b : Byte) (n : Nat) : List Event :=
  if u = .sound ∧ 0 < b.toNat ∧ b.toNat ≤ n then [.audioStop] else []

@[simp] theorem stopEvents_delay (b : Byte) (n : Nat) : stopEvents .delay b n = [] := rfl

theorem stopEvents_sound (b : Byte) (n : Nat) :
    stopEvents .sound b n = if 0 < b.toNat ∧ b.toNat ≤ n then [.audioStop] else [] := by
  simp [stopEvents]

@[simp] theorem stopEvents_zero (u : TimerUnit) (b : Byte) : stopEvents u b 0 = [] :=
  if_neg fun ⟨_, hpos, hle⟩ => Nat.not_le_of_lt hpos hle

theorem length_stopEvents (u : TimerUnit) (b : Byte) (n : Nat) : (stopEvents u b n).length ≤ 1 := by
  unfold stopEvents
  split <;> simp

/-- Ticks emit what the first one emits and then what the others do from the register it leaves. -/
theorem stopEvents_succ (u : TimerUnit) {b c : Byte} (h : c.toNat = b.toNat - 1) (n : Nat) :
    stopEvents u b (n + 1) = stopEvents u b 1 ++ stopEvents u c n := by
  cases u with
  | delay => rfl
  | sound =>
    simp only [stopEvents_sound, h]
    obtain hzero | hone | hmore : b.toNat = 0 ∨ b.toNat = 1 ∨ 2 ≤ b.toNat := by omega
    · simp [hzero]
    · simp [hone]
    · have hfirst : ¬(0 < b.toNat ∧ b.toNat ≤ 1) := by omega
      have hrest : (0 < b.toNat ∧ b.toNat ≤ n + 1) ↔ (0 < b.toNat - 1 ∧ b.toNat - 1 ≤ n) := by omega
      simp only [hrest, if_neg hfirst, List.nil_append]

/-- The sound timer's ticks emit `AudioStop` when it was running and they leave it at zero. -/
theorem stopEvents_sound_of_left {b c : Byte} {n : Nat} (h : c.toNat = b.toNat - n) :
    stopEvents .sound b n = if b ≠ 0 ∧ c = 0 then [.audioStop] else [] := by
  have hiff : (0 < b.toNat ∧ b.toNat ≤ n) ↔ b ≠ 0 ∧ c = 0 := by bv_omega
  simp only [stopEvents_sound, hiff]

theorem stopEvents_sound_one (b : Byte) : stopEvents .sound b 1 = if b = 1 then [.audioStop] else [] := by
  have : (0 < b.toNat ∧ b.toNat ≤ 1) ↔ b = 1 := by bv_omega
  simp only [stopEvents_sound, this]

/-- One tick emits `AudioStop` exactly when it takes the sound timer from 1 to 0 (R216). -/
theorem events_timerTick (u : TimerUnit) (s : State) :
    (timerTick u s).events = s.events ++ stopEvents u (s.timer u) 1 := by
  by_cases h : s.timer u = 0
  · rw [timerTick_zero h, h]
    simp [stopEvents]
  · rw [timerTick_pos h]
    cases u with
    | delay => simp
    | sound =>
      have : s.timer .sound - 1 = 0 ↔ s.timer .sound = 1 := sub_eq_zero
      simp only [stopEvents_sound_one, this, true_and]
      split <;> simp

theorem events_timerTicks (u : TimerUnit) (n : Nat) (s : State) :
    (timerTicks u n s).events = s.events ++ stopEvents u (s.timer u) n := by
  induction n generalizing s with
  | zero => simp
  | succ n ih =>
    rw [timerTicks_succ, ih, events_timerTick, List.append_assoc, ← stopEvents_succ u (timer_timerTick u s)]

/-- Ticks change the bound register and the event history alone (R214). -/
theorem timerTicks_frame (u : TimerUnit) (n : Nat) (s : State) :
    timerTicks u n s =
      { s.setTimer u ((timerTicks u n s).timer u) with events := (timerTicks u n s).events } := by
  cases u with
  | delay =>
    conv => lhs; rw [timerTicks_delay]
    rw [events_timerTicks, stopEvents_delay, List.append_nil]
    rfl
  | sound => exact timerTicks_sound n s

/-! ## A timer update (spec/60_exceptions.md R212) -/

theorem acc_timerUpdate (u : TimerUnit) (delta : Nat) (s : State) :
    (timerUpdate u delta s).acc u = (s.acc u + delta) % Params.timerPeriod := by
  simp only [timerUpdate, acc_timerTicks, State.setAcc_acc]

theorem timer_timerUpdate (u : TimerUnit) (delta : Nat) (s : State) :
    ((timerUpdate u delta s).timer u).toNat = (s.timer u).toNat - (s.acc u + delta) / Params.timerPeriod := by
  simp only [timerUpdate, timer_timerTicks, State.setAcc_timer]

theorem events_timerUpdate (u : TimerUnit) (delta : Nat) (s : State) :
    (timerUpdate u delta s).events =
      s.events ++ stopEvents u (s.timer u) ((s.acc u + delta) / Params.timerPeriod) := by
  simp only [timerUpdate, events_timerTicks, State.setAcc_timer, State.setAcc_events]

/-- An update changes the unit's accumulator, its bound register and the event history alone (R214). -/
theorem timerUpdate_frame (u : TimerUnit) (delta : Nat) (s : State) :
    timerUpdate u delta s =
      { (s.setAcc u ((timerUpdate u delta s).acc u)).setTimer u ((timerUpdate u delta s).timer u) with
        events := (timerUpdate u delta s).events } := by
  rw [acc_timerUpdate]
  exact timerTicks_frame u _ _

/-- The delay unit emits nothing, so its update changes its accumulator and `DT` alone (R217). -/
theorem timerUpdate_delay_frame (delta : Nat) (s : State) :
    timerUpdate .delay delta s =
      { s with accDt := (timerUpdate .delay delta s).accDt, dt := (timerUpdate .delay delta s).dt } := by
  conv => lhs; rw [timerUpdate_frame, events_timerUpdate, stopEvents_delay, List.append_nil]
  rfl

/-! ## The family's statements -/

/-- Settles O10 (R225): an instruction appends at most one event, a fault none, a tick at most `AudioStop`. -/
theorem oneEventPerStep : Obligations.OneEventPerStep := by
  intro s t hmove hstep
  obtain ⟨-, hperform⟩ := step_next hstep
  obtain hcpu | ⟨u, htick⟩ := hmove
  · rw [hcpu] at hperform
    exact cpuStep_events (s := s.tookMove) hperform
  · rw [htick] at hperform
    cases hperform
    exact ⟨_, length_stopEvents .., events_timerTick u s.tookMove⟩

/-- Settles O55 (R215): the tick's value, event and frame lemmas at the state with the move taken. -/
theorem tickDecrements : Obligations.TickDecrements := by
  intro s hrunning
  refine ⟨fun hmove => ⟨timerTick .delay s.tookMove, ?_, ?_, ?_⟩,
    fun hmove => ⟨timerTick .sound s.tookMove, ?_, ?_, ?_, ?_⟩⟩
  · rw [step_move hrunning, hmove]
    rfl
  · exact timer_timerTick .delay s.tookMove
  · exact timerTicks_delay 1 s.tookMove
  · rw [step_move hrunning, hmove]
    rfl
  · exact timer_timerTick .sound s.tookMove
  · exact (events_timerTick .sound s.tookMove).trans
      (congrArg (s.events ++ ·) (stopEvents_sound_of_left (timer_timerTick .sound s.tookMove)))
  · exact timerTicks_sound 1 s.tookMove

/-- Settles O56 (R216, R217): the events of a tick and of an update are their `stopEvents`, of which the delay unit has
none. -/
theorem soundStopsOnceAtZero : Obligations.SoundStopsOnceAtZero := by
  intro s delta hrunning
  rw [step_move hrunning]
  refine ⟨fun hmove => ?_, fun hmove => ?_, ?_⟩
  · rw [hmove, ← stopEvents_sound_one]
    exact ⟨_, rfl, events_timerTick .sound s.tookMove⟩
  · rw [hmove, ← stopEvents_sound]
    exact ⟨_, rfl, timer_timerUpdate .sound delta s.tookMove, events_timerUpdate .sound delta s.tookMove⟩
  · rintro (hmove | hmove) <;> rw [hmove]
    · exact ⟨_, rfl, by simp [events_timerTick]⟩
    · exact ⟨_, rfl, by simp [events_timerUpdate]⟩

/-- Settles O57 (R212): the accumulator, register, event and frame lemmas of an update at the state with the move
taken. -/
theorem updateCountsWholePeriods : Obligations.UpdateCountsWholePeriods := by
  intro s delta hrunning
  rw [step_move hrunning]
  refine ⟨fun hmove => ?_, fun hmove => ?_⟩
  · rw [hmove]
    exact ⟨_, rfl, acc_timerUpdate .delay delta s.tookMove, timer_timerUpdate .delay delta s.tookMove,
      timerUpdate_delay_frame delta s.tookMove⟩
  · rw [hmove, ← stopEvents_sound]
    exact ⟨_, rfl, acc_timerUpdate .sound delta s.tookMove, timer_timerUpdate .sound delta s.tookMove,
      events_timerUpdate .sound delta s.tookMove, timerUpdate_frame .sound delta s.tookMove⟩

/-- Settles O58 (R214): an update's accumulator, register and events are functions of the unit's own accumulator and
register, and the frame lemma says that it changes no other part. -/
theorem timerUnitsAreIndependent : Obligations.TimerUnitsAreIndependent := by
  intro u delta s s'
  refine ⟨fun hacc htimer => ⟨?_, ?_, ?_⟩, timerUpdate_frame u delta s, fun x => ⟨?_, ?_, ?_⟩⟩
  · rw [acc_timerUpdate, acc_timerUpdate, hacc]
  · exact BitVec.eq_of_toNat_eq (by rw [timer_timerUpdate, timer_timerUpdate, hacc, htimer])
  · refine ⟨_, events_timerUpdate u delta s, ?_⟩
    rw [events_timerUpdate, hacc, htimer]
  · exact ⟨_, rfl, State.reg_setReg_self ..⟩
  · exact ⟨_, rfl, timer_timerUpdate .delay delta _⟩
  · exact ⟨_, rfl, timer_timerUpdate .sound delta _⟩

/-- Settles O60 (R204, R227): instructions and the fetch raise other faults only, and the injected one ends the run. -/
theorem resourceFailureIsTheHosts : Obligations.ResourceFailureIsTheHosts := by
  refine ⟨fun i s => ⟨exec_ne_resourceFailure i s, fetchDecode_ne_resourceFailure s⟩, fun s hrunning hmove => ?_⟩
  rw [step_move hrunning, hmove]
  exact ⟨_, rfl, rfl, fun u => noStepUnlessRunning _ u (.inr ⟨_, rfl⟩)⟩

end Sys2Proof.Machine
end

section
namespace Sys2Proof

open Sys2Proof.Machine

/-! ## The fields of an encoded word (spec/30_encoding.md R71, R72) -/

@[simp] theorem fieldOp_encodeA (op : Nibble) (nnn : Addr) : fieldOp (encodeA op nnn) = op.toNat := by
  rw [fieldOp_eq, encodeA_toNat]
  omega

@[simp] theorem fieldNnn_encodeA (op : Nibble) (nnn : Addr) : fieldNnn (encodeA op nnn) = nnn := by
  apply BitVec.eq_of_toNat_eq
  rw [fieldNnn_toNat, encodeA_toNat]
  omega

@[simp] theorem fieldOp_encodeXK (op : Nibble) (x : Reg) (kk : Byte) : fieldOp (encodeXK op x kk) = op.toNat := by
  rw [fieldOp_eq, encodeXK_toNat]
  omega

@[simp] theorem fieldX_encodeXK (op : Nibble) (x : Reg) (kk : Byte) : fieldX (encodeXK op x kk) = x := by
  apply Fin.ext
  rw [fieldX_val, encodeXK_toNat]
  omega

@[simp] theorem fieldKk_encodeXK (op : Nibble) (x : Reg) (kk : Byte) : fieldKk (encodeXK op x kk) = kk := by
  apply BitVec.eq_of_toNat_eq
  rw [fieldKk_toNat, encodeXK_toNat]
  omega

@[simp] theorem fieldOp_encodeXYN (op : Nibble) (x y : Reg) (n : Nibble) :
    fieldOp (encodeXYN op x y n) = op.toNat := by
  rw [fieldOp_eq, encodeXYN_toNat]
  omega

@[simp] theorem fieldX_encodeXYN (op : Nibble) (x y : Reg) (n : Nibble) : fieldX (encodeXYN op x y n) = x := by
  apply Fin.ext
  rw [fieldX_val, encodeXYN_toNat]
  omega

@[simp] theorem fieldY_encodeXYN (op : Nibble) (x y : Reg) (n : Nibble) : fieldY (encodeXYN op x y n) = y := by
  apply Fin.ext
  rw [fieldY_val, encodeXYN_toNat]
  omega

@[simp] theorem fieldN_encodeXYN (op : Nibble) (x y : Reg) (n : Nibble) : fieldN (encodeXYN op x y n) = n := by
  apply BitVec.eq_of_toNat_eq
  rw [fieldN_toNat, encodeXYN_toNat]
  omega

/-! ## The formats put the fields of a word together again -/

theorem encodeA_fields {w : Word} {op : Nibble} (hop : fieldOp w = op.toNat) : encodeA op (fieldNnn w) = w := by
  apply BitVec.eq_of_toNat_eq
  rw [fieldOp_eq] at hop
  rw [encodeA_toNat, fieldNnn_toNat]
  omega

theorem encodeXK_fields {w : Word} {op : Nibble} {kk : Byte} (hop : fieldOp w = op.toNat)
    (hkk : (fieldKk w).toNat = kk.toNat) : encodeXK op (fieldX w) kk = w := by
  apply BitVec.eq_of_toNat_eq
  rw [fieldOp_eq] at hop
  rw [fieldKk_toNat] at hkk
  rw [encodeXK_toNat, fieldX_val]
  omega

theorem encodeXYN_fields {w : Word} {op n : Nibble} (hop : fieldOp w = op.toNat)
    (hn : (fieldN w).toNat = n.toNat) : encodeXYN op (fieldX w) (fieldY w) n = w := by
  apply BitVec.eq_of_toNat_eq
  rw [fieldOp_eq] at hop
  rw [fieldN_toNat] at hn
  rw [encodeXYN_toNat, fieldX_val, fieldY_val]
  omega

/-! ## Encode, then decode -/

/-- The decoder reads an instruction's own word: its format's fields select the instruction's row and are its operands. -/
theorem decodeWord_encodeWord (i : Instr) : decodeWord (encodeWord i) = some i := by
  cases i with
  | cls | ret => rfl
  | jp | call | ldI | jpV0 => simp [encodeWord, decodeWord]
  | seK | sneK | ldK | addK | rnd => simp [encodeWord, decodeWord]
  | seV | sneV | drw => simp [encodeWord, decodeWord]
  | ldV | orV | andV | xorV | addV | sub | shr | subn | shl => simp [encodeWord, decodeWord, decodeFamily8]
  | skp | sknp => simp [encodeWord, decodeWord, decodeFamilyE]
  | ldVxDt | ldVxK | ldDtVx | ldStVx | addI | ldF | ldB | ldMemVx | ldVxMem =>
    simp [encodeWord, decodeWord, decodeFamilyF]

/-- Settles O1 (R70 to R80, R51): the word decodes, and the two bytes put it together again in front of any others. -/
theorem decodeOfEncode : Obligations.DecodeOfEncode := fun i rest =>
  ⟨decodeWord_encodeWord i, by simp [encode, bytesOfWord, decode, decodeWord_encodeWord]⟩

/-! ## Decode, then encode -/

theorem encodeWord_of_decodeFamily0 {w : Word} {i : Instr} (h : decodeFamily0 w = some i) : encodeWord i = w := by
  unfold decodeFamily0 at h
  split at h <;> cases h
  all_goals exact BitVec.eq_of_toNat_eq (Eq.symm ‹_›)

theorem encodeWord_of_decodeFamily8 {w : Word} {i : Instr} (hop : fieldOp w = 0x8) (h : decodeFamily8 w = some i) :
    encodeWord i = w := by
  unfold decodeFamily8 at h
  split at h <;> cases h
  all_goals exact encodeXYN_fields hop ‹_›

theorem encodeWord_of_decodeFamilyE {w : Word} {i : Instr} (hop : fieldOp w = 0xE) (h : decodeFamilyE w = some i) :
    encodeWord i = w := by
  unfold decodeFamilyE at h
  split at h <;> cases h
  all_goals exact encodeXK_fields hop ‹_›

theorem encodeWord_of_decodeFamilyF {w : Word} {i : Instr} (hop : fieldOp w = 0xF) (h : decodeFamilyF w = some i) :
    encodeWord i = w := by
  unfold decodeFamilyF at h
  split at h <;> cases h
  all_goals exact encodeXK_fields hop ‹_›

/-- Settles O2 (R74): the fields an instruction was decoded with are those its format puts together again. -/
theorem encodeOfDecode : Obligations.EncodeOfDecode := by
  intro w i h
  unfold decodeWord at h
  split at h
  case h_1 => exact encodeWord_of_decodeFamily0 h
  case h_9 hop => exact encodeWord_of_decodeFamily8 hop h
  case h_15 hop => exact encodeWord_of_decodeFamilyE hop h
  case h_16 hop => exact encodeWord_of_decodeFamilyF hop h
  case h_17 => cases h
  case h_6 hop | h_10 hop =>
    split at h <;> cases h
    exact encodeXYN_fields hop (congrArg BitVec.toNat ‹_›)
  case h_2 hop | h_3 hop | h_11 hop | h_12 hop => cases h; exact encodeA_fields hop
  case h_4 hop | h_5 hop | h_7 hop | h_8 hop | h_13 hop => cases h; exact encodeXK_fields hop rfl
  case h_14 hop => cases h; exact encodeXYN_fields hop rfl

/-! ## The words that do not decode (spec/30_encoding.md R81) -/

theorem decodeFamily0_eq_none {w : Word} : decodeFamily0 w = none ↔ w.toNat ≠ 0x00E0 ∧ w.toNat ≠ 0x00EE := by
  unfold decodeFamily0
  split <;> simp_all

theorem decodeFamily8_eq_none {w : Word} :
    decodeFamily8 w = none ↔ w.toNat % 16 ∈ [0x8, 0x9, 0xA, 0xB, 0xC, 0xD, 0xF] := by
  unfold decodeFamily8
  rw [← fieldN_toNat]
  have := (fieldN w).isLt
  split <;> simp_all
  omega

theorem decodeFamilyE_eq_none {w : Word} : decodeFamilyE w = none ↔ w.toNat % 256 ∉ [0x9E, 0xA1] := by
  unfold decodeFamilyE
  rw [← fieldKk_toNat]
  split <;> simp_all

theorem decodeFamilyF_eq_none {w : Word} :
    decodeFamilyF w = none ↔ w.toNat % 256 ∉ [0x07, 0x0A, 0x15, 0x18, 0x1E, 0x29, 0x33, 0x55, 0x65] := by
  unfold decodeFamilyF
  rw [← fieldKk_toNat]
  split <;> simp_all

theorem fieldN_eq_zero {w : Word} : fieldN w = 0#4 ↔ w.toNat % 16 = 0 := by
  rw [← fieldN_toNat]
  exact ⟨congrArg BitVec.toNat, fun h => BitVec.eq_of_toNat_eq h⟩

/-- Settles O3 (R81): family by family, the decoder has no row for exactly the listed words. -/
theorem illegalWordsAreThoseListed : Obligations.IllegalWordsAreThoseListed := by
  intro w
  have hw := w.isLt
  unfold decodeWord illegalWord
  rw [fieldOp_eq]
  split
  case h_1 hop =>
    rw [decodeFamily0_eq_none]
    omega
  case h_9 hop => simp [hop, decodeFamily8_eq_none]
  case h_15 hop => simp [hop, decodeFamilyE_eq_none]
  case h_16 hop => simp [hop, decodeFamilyF_eq_none]
  case h_6 hop | h_10 hop => simp [hop, fieldN_eq_zero]
  case h_17 =>
    simp_all
    omega
  all_goals simp [*]

/-! ## Encodings as numbers -/

theorem wordA_eq (op : Nat) (nnn : Addr) : wordA op nnn = encodeA (BitVec.ofNat 4 op) nnn := by
  apply BitVec.eq_of_toNat_eq
  rw [encodeA_toNat]
  simp only [wordA, BitVec.toNat_ofNat]
  omega

theorem wordXK_eq (op : Nat) (x : Reg) (kk : Byte) : wordXK op x kk.toNat = encodeXK (BitVec.ofNat 4 op) x kk := by
  apply BitVec.eq_of_toNat_eq
  rw [encodeXK_toNat]
  simp only [wordXK, BitVec.toNat_ofNat]
  omega

theorem wordXYN_eq (op : Nat) (x y : Reg) (n : Nibble) :
    wordXYN op x y n.toNat = encodeXYN (BitVec.ofNat 4 op) x y n := by
  apply BitVec.eq_of_toNat_eq
  rw [encodeXYN_toNat]
  simp only [wordXYN, BitVec.toNat_ofNat]
  omega

theorem decodeWord_wordA {op : Nat} {nnn : Addr} {i : Instr} (h : encodeWord i = encodeA (BitVec.ofNat 4 op) nnn) :
    decodeWord (wordA op nnn) = some i := by
  rw [wordA_eq, ← h, decodeWord_encodeWord]

theorem decodeWord_wordXK {op : Nat} {x : Reg} (kk : Byte) {i : Instr}
    (h : encodeWord i = encodeXK (BitVec.ofNat 4 op) x kk) : decodeWord (wordXK op x kk.toNat) = some i := by
  rw [wordXK_eq, ← h, decodeWord_encodeWord]

theorem decodeWord_wordXYN {op : Nat} {x y : Reg} (n : Nibble) {i : Instr}
    (h : encodeWord i = encodeXYN (BitVec.ofNat 4 op) x y n) : decodeWord (wordXYN op x y n.toNat) = some i := by
  rw [wordXYN_eq, ← h, decodeWord_encodeWord]

/-- Settles O4 (R75 to R80): each number is the encoded word of its instruction. -/
theorem everyEncodingDecodes : Obligations.EveryEncodingDecodes := fun _ _ n kk _ =>
  ⟨rfl, rfl, decodeWord_wordA rfl, decodeWord_wordA rfl, decodeWord_wordXK kk rfl, decodeWord_wordXK kk rfl,
    decodeWord_wordXYN 0x0 rfl, decodeWord_wordXK kk rfl, decodeWord_wordXK kk rfl,
    decodeWord_wordXYN 0x0 rfl, decodeWord_wordXYN 0x1 rfl, decodeWord_wordXYN 0x2 rfl, decodeWord_wordXYN 0x3 rfl,
    decodeWord_wordXYN 0x4 rfl, decodeWord_wordXYN 0x5 rfl, decodeWord_wordXYN 0x6 rfl, decodeWord_wordXYN 0x7 rfl,
    decodeWord_wordXYN 0xE rfl, decodeWord_wordXYN 0x0 rfl, decodeWord_wordA rfl, decodeWord_wordA rfl,
    decodeWord_wordXK kk rfl, decodeWord_wordXYN n rfl, decodeWord_wordXK 0x9E rfl, decodeWord_wordXK 0xA1 rfl,
    decodeWord_wordXK 0x07 rfl, decodeWord_wordXK 0x0A rfl, decodeWord_wordXK 0x15 rfl, decodeWord_wordXK 0x18 rfl,
    decodeWord_wordXK 0x1E rfl, decodeWord_wordXK 0x29 rfl, decodeWord_wordXK 0x33 rfl, decodeWord_wordXK 0x55 rfl,
    decodeWord_wordXK 0x65 rfl⟩

/-- Settles O5 (R75 to R80; R81 for the two illegal words): fixed words, which the decoder evaluates. -/
theorem exampleWordsDecode : Obligations.ExampleWordsDecode := by
  unfold Obligations.ExampleWordsDecode
  decide

end Sys2Proof
end

section
namespace Sys2Proof.Machine

/-! ## Registers after a flag write (spec/41_alu.md R122) -/

@[simp] theorem reg_setFlag_self (s : State) (f : Bool) : (s.setFlag f).reg flagReg = flagByte f :=
  State.reg_setReg_self ..

theorem reg_setFlag_ne {x : Reg} (h : x ≠ flagReg) (s : State) (f : Bool) : (s.setFlag f).reg x = s.reg x :=
  State.reg_setReg_ne s h _

theorem flagByte_eq_one {f : Bool} : flagByte f = 1 ↔ f = true := by cases f <;> decide

theorem flagByte_zero_or_one (f : Bool) : flagByte f = 0 ∨ flagByte f = 1 := by cases f <;> decide

theorem flagByte_decide (p : Prop) [Decidable p] : flagByte (decide p) = if p then 1 else 0 := by
  simp [flagByte]

/-! ## The stack slots `SP` names (spec/10_state.md R26, R27) -/

theorem slotOf_eq_some_toInt {sp : BitVec 8} {k : Fin 16} : slotOf sp = some k ↔ sp.toInt = k.val := by
  have := sp_toInt sp
  have := sp.isLt
  rw [slotOf_eq_some]
  omega

theorem slotOf_succ_eq_some {sp : BitVec 8} {k : Fin 16} : slotOf (sp + 1) = some k ↔ (k.val : Int) = sp.toInt + 1 := by
  have := sp_toInt sp
  have := sp.isLt
  rw [slotOf_eq_some, sp_succ]
  omega

theorem toInt_succ_of_slot {sp : BitVec 8} {k : Fin 16} (h : slotOf (sp + 1) = some k) :
    (sp + 1).toInt = sp.toInt + 1 := by
  rw [slotOf_eq_some_toInt.mp h, slotOf_succ_eq_some.mp h]

theorem toInt_pred_of_slot {sp : BitVec 8} {k : Fin 16} (h : slotOf sp = some k) : (sp - 1).toInt = sp.toInt - 1 := by
  have := sp_toInt sp
  have := sp_toInt (sp - 1)
  have := sp_pred sp
  have := slotOf_eq_some.mp h
  omega

theorem slotOf_eq_none_of_empty {sp : BitVec 8} (h : sp.toInt = -1) : slotOf sp = none := by
  have := sp_toInt sp
  rw [slotOf_eq_none]
  omega

theorem slotOf_succ_eq_none_of_full {sp : BitVec 8} (h : sp.toInt = 15) : slotOf (sp + 1) = none := by
  have := sp_toInt sp
  have := sp.isLt
  rw [slotOf_eq_none, sp_succ]
  omega

theorem execCall_of_slot {nnn : Addr} {s : State} {k : Fin 16} (h : slotOf (s.sp + 1) = some k) :
    execCall nnn s = .next (((s.setSp (s.sp + 1)).setSlot k s.pc).setPc (addrOf nnn)) := by
  simp only [execCall, h, redirect_eq]

theorem execCall_of_full {nnn : Addr} {s : State} (h : slotOf (s.sp + 1) = none) :
    execCall nnn s = .fault (.outOfBounds .stackOverflow s.pc s.pc) := by
  simp only [execCall, h, raise_eq]

/-- `CALL` goes on when, and only when, a slot is free for its address. -/
theorem execCall_next {nnn : Addr} {s t : State} (h : execCall nnn s = .next t) :
    ∃ k, slotOf (s.sp + 1) = some k ∧ t = ((s.setSp (s.sp + 1)).setSlot k s.pc).setPc (addrOf nnn) := by
  cases hk : slotOf (s.sp + 1) with
  | none => cases (execCall_of_full hk).symm.trans h
  | some k => exact ⟨k, rfl, by cases (execCall_of_slot hk).symm.trans h; rfl⟩

theorem execRet_of_slot {s : State} {k : Fin 16} (h : slotOf s.sp = some k) :
    execRet s = .next ((s.setPc (s.stack[k] + 2)).setSp (s.sp - 1)) := by
  simp only [execRet, h]
  rfl

theorem execRet_of_empty {s : State} (h : slotOf s.sp = none) :
    execRet s = .fault (.outOfBounds .stackUnderflow s.pc s.pc) := by
  simp [execRet, h]

/-- `RET` goes on when, and only when, a slot holds a return address. -/
theorem execRet_next {s t : State} (h : execRet s = .next t) :
    ∃ k, slotOf s.sp = some k ∧ t = (s.setPc (s.stack[k] + 2)).setSp (s.sp - 1) := by
  cases hk : slotOf s.sp with
  | none => cases (execRet_of_empty hk).symm.trans h
  | some k => exact ⟨k, rfl, by cases (execRet_of_slot hk).symm.trans h; rfl⟩

/-- Slot `j` after a return address has been put in slot `k`. -/
theorem getElem_setSlot (s : State) (j k : Fin 16) (w : Word) :
    (s.setSlot k w).stack[j] = if j = k then w else s.stack[j] := by
  simp only [State.setSlot_stack, Fin.getElem_fin, Vector.getElem_set, Fin.ext_iff, eq_comm]

/-! ## Targets (spec/30_encoding.md R73, spec/40_control_flow.md R104) -/

@[simp] theorem addrOf_toNat (nnn : Addr) : (addrOf nnn).toNat = nnn.toNat := by
  simp only [addrOf, BitVec.toNat_setWidth]
  omega

@[simp] theorem offsetTarget_toNat (nnn : Addr) (b : Byte) :
    (offsetTarget nnn b).toNat = (nnn.toNat + b.toNat) % 4096 := by
  simp only [offsetTarget, BitVec.toNat_ofNat]
  omega

theorem skipIf_beq (a b : Byte) (s : State) :
    skipIf (a == b) s = .next { s with pc := if a = b then s.pc + 4 else s.pc + 2 } := by
  rw [skipIf_eq]
  by_cases h : a = b <;> simp [h, State.setPc]

theorem skipIf_bne (a b : Byte) (s : State) :
    skipIf (a != b) s = .next { s with pc := if a = b then s.pc + 2 else s.pc + 4 } := by
  rw [skipIf_eq]
  by_cases h : a = b <;> simp [h, State.setPc]

/-! ## Reads at `I` (spec/20_memory.md R52) -/

/-- Registers loaded from `I`: those up to `x` from memory, the others as before. -/
theorem reg_loadRegs_memGetRun (s : State) (m : Memory) (a : Nat) (x k : Reg) :
    (s.setRegs (loadRegs s.v (memGetRun m a (x.val + 1)))).reg k =
      if k ≤ x then memGet m (a + k.val) else s.reg k := by
  have hiff : k.val < x.val + 1 ↔ k ≤ x := Nat.lt_succ_iff
  refine (getElem_loadRegs ..).trans ?_
  rw [List.getD_eq_getElem?_getD, getElem?_memGetRun]
  simp only [hiff]
  split <;> rfl

theorem execLdVxMem_of_fits {x : Reg} {s : State} (h : s.i.toNat + x.val < Params.memSize) :
    execLdVxMem x s =
      .next ((s.setRegs (loadRegs s.v (memGetRun s.mem s.i.toNat (x.val + 1)))).setPc (s.pc + 2)) := by
  have hread : readBytes s s.i (x.val + 1) = .ok (memGetRun s.mem s.i.toNat (x.val + 1)) :=
    readBytes_ok.mpr ⟨by omega, rfl⟩
  simp [execLdVxMem, hread]

theorem execLdVxMem_of_out {x : Reg} {s : State} (h : Params.memSize ≤ s.i.toNat + x.val) :
    execLdVxMem x s = .fault (.outOfBounds .read s.pc s.i) := by
  have hread : readBytes s s.i (x.val + 1) = .error (.outOfBounds .read s.pc s.i) :=
    readBytes_error.mpr ⟨by omega, rfl⟩
  simp [execLdVxMem, hread]

/-- `LD Vx,[I]` goes on when, and only when, its bytes lie inside memory. -/
theorem execLdVxMem_next {x : Reg} {s t : State} (h : execLdVxMem x s = .next t) :
    s.i.toNat + x.val < Params.memSize ∧
      t = (s.setRegs (loadRegs s.v (memGetRun s.mem s.i.toNat (x.val + 1)))).setPc (s.pc + 2) := by
  by_cases hfit : s.i.toNat + x.val < Params.memSize
  · cases (execLdVxMem_of_fits hfit).symm.trans h
    exact ⟨hfit, rfl⟩
  · cases (execLdVxMem_of_out (Nat.le_of_not_lt hfit)).symm.trans h

theorem execDrw_of_fits {x y : Reg} {n : Nibble} {s : State} (hn : n ≠ 0)
    (h : s.i.toNat + n.toNat - 1 < Params.memSize) :
    execDrw x y n s =
      .next ((s.draw (s.reg x) (s.reg y) (memGetRun s.mem s.i.toNat n.toNat)).setPc (s.pc + 2)) := by
  have hread : readBytes s s.i n.toNat = .ok (memGetRun s.mem s.i.toNat n.toNat) := readBytes_ok.mpr ⟨h, rfl⟩
  simp only [execDrw, if_neg hn, hread]
  rfl

theorem execDrw_of_out {x y : Reg} {n : Nibble} {s : State} (hn : n ≠ 0)
    (h : Params.memSize ≤ s.i.toNat + n.toNat - 1) :
    execDrw x y n s = .fault (.outOfBounds .read s.pc s.i) := by
  have hread : readBytes s s.i n.toNat = .error (.outOfBounds .read s.pc s.i) := readBytes_error.mpr ⟨h, rfl⟩
  simp only [execDrw, if_neg hn, hread, raise_eq]

/-- `DRW` goes on when, and only when, its height is not 0 and its rows lie inside memory. -/
theorem execDrw_next {x y : Reg} {n : Nibble} {s t : State} (h : execDrw x y n s = .next t) :
    n ≠ 0 ∧ s.i.toNat + n.toNat - 1 < Params.memSize ∧
      t = (s.draw (s.reg x) (s.reg y) (memGetRun s.mem s.i.toNat n.toNat)).setPc (s.pc + 2) := by
  by_cases hn : n = 0
  · subst hn
    cases h
  · by_cases hfit : s.i.toNat + n.toNat - 1 < Params.memSize
    · cases (execDrw_of_fits hn hfit).symm.trans h
      exact ⟨hn, hfit, rfl⟩
    · cases (execDrw_of_out hn (Nat.le_of_not_lt hfit)).symm.trans h

/-! ## Operands with a stated domain (spec/60_exceptions.md R203) -/

theorem execLdF_of_digit {x : Reg} {s : State} {d : Fin 16} (h : (s.reg x).toNat = d.val) :
    execLdF x s = .next ((s.setI (glyphAddr d)).setPc (s.pc + 2)) := by
  simp [execLdF, index16_eq_some.mpr h]

theorem execLdF_of_large {x : Reg} {s : State} (h : 16 ≤ (s.reg x).toNat) :
    execLdF x s = .fault (.unmodelled .fontDigit s.pc (infoOf (s.reg x))) := by
  simp [execLdF, index16_eq_none.mpr h]

theorem skipOnKey_of_key {x : Reg} {s : State} {k : Fin 16} (pressed : Bool) (h : (s.reg x).toNat = k.val) :
    skipOnKey x pressed s = skipIf (s.keys[k] == pressed) s.tookKeys := by
  simp [skipOnKey, index16_eq_some.mpr h]

theorem skipOnKey_of_large {x : Reg} {s : State} (pressed : Bool) (h : 16 ≤ (s.reg x).toNat) :
    skipOnKey x pressed s = .fault (.unmodelled .keyIndex s.pc (infoOf (s.reg x))) := by
  simp [skipOnKey, index16_eq_none.mpr h]

/-- `LD F,Vx` goes on when, and only when, the register holds a digit. -/
theorem execLdF_next {x : Reg} {s t : State} (h : execLdF x s = .next t) :
    ∃ d : Fin 16, t = (s.setI (glyphAddr d)).setPc (s.pc + 2) := by
  by_cases hd : (s.reg x).toNat < 16
  · cases (execLdF_of_digit (d := ⟨_, hd⟩) rfl).symm.trans h
    exact ⟨_, rfl⟩
  · cases (execLdF_of_large (Nat.le_of_not_lt hd)).symm.trans h

/-- A key skip goes on when, and only when, the register holds a key index. -/
theorem skipOnKey_next {x : Reg} {pressed : Bool} {s t : State} (h : skipOnKey x pressed s = .next t) :
    ∃ c : Bool, t = s.tookKeys.setPc (s.pc + if c then 4 else 2) := by
  by_cases hk : (s.reg x).toNat < 16
  · rw [skipOnKey_of_key (k := ⟨_, hk⟩) pressed rfl, skipIf_eq] at h
    cases h
    exact ⟨_, rfl⟩
  · cases (skipOnKey_of_large pressed (Nat.le_of_not_lt hk)).symm.trans h

theorem infoOf_eq (b : Byte) : infoOf b = BitVec.ofNat 16 b.toNat := by
  apply BitVec.eq_of_toNat_eq
  simp [infoOf]

end Sys2Proof.Machine
end

section
namespace Sys2Proof.Machine

/-! ## What an instruction that goes on does -/

theorem writeBack_eq_setRegs (s : State) (x : Reg) (r : Byte × Option Bool) :
    s.writeBack x r = s.setRegs (s.writeBack x r).v := by
  unfold State.writeBack
  split <;> rfl

/-- A write-back leaves every register alone but its destination and, with a flag, `VF`. -/
theorem reg_writeBack_ne {s : State} {x k : Reg} {r : Byte × Option Bool} (hx : k ≠ x)
    (hflag : r.2 = none ∨ k ≠ flagReg) : (s.writeBack x r).reg k = s.reg k := by
  cases hr : r.2 with
  | none => rw [writeBack_none hr, State.reg_setReg_ne s hx]
  | some f =>
    have hk : k ≠ flagReg := hflag.resolve_left (by simp [hr])
    rw [writeBack_some hr, reg_setFlag_ne hk, State.reg_setReg_ne s hx]

/-- The next states of the instructions, grouped by what they change: `Effect s i t` holds of every state `t` that `i`
can leave at `s`. -/
inductive Effect (s : State) : Instr → State → Prop
  /-- Jumps and register skips. -/
  | jump {i : Instr} (w : Word) (hw : w.toNat < 4096 ∨ w = s.pc + 2 ∨ w = s.pc + 4) : Effect s i (s.setPc w)
  | call {nnn : Addr} {k : Fin 16} (hk : slotOf (s.sp + 1) = some k) :
      Effect s (.call nnn) (((s.setSp (s.sp + 1)).setSlot k s.pc).setPc (addrOf nnn))
  | ret {k : Fin 16} (hk : slotOf s.sp = some k) :
      Effect s .ret ((s.setPc (s.stack[k] + 2)).setSp (s.sp - 1))
  /-- Loads, ALU instructions and shifts. -/
  | regs {i : Instr} (v : Vector Byte 16) (hv : ∀ k, writesReg i k = false → (s.setRegs v).reg k = s.reg k) :
      Effect s i ((s.setRegs v).setPc (s.pc + 2))
  | random (x : Reg) (kk b : Byte) : Effect s (.rnd x kk) ((s.tookByte.setReg x b).setPc (s.pc + 2))
  | index {i : Instr} (hi : writesI i) (w : Word) : Effect s i ((s.setI w).setPc (s.pc + 2))
  | store {i : Instr} (bs : List Byte) (hrun : storedRun i s = (s.i.toNat, bs.length))
      (hfit : s.i.toNat + bs.length ≤ Params.memSize) :
      Effect s i ((s.setMem (memPutRun s.mem s.i.toNat bs)).setPc (s.pc + 2))
  | clear : Effect s .cls (((s.setFb clearFramebuffer).emit (.displayFrame clearFramebuffer)).setPc (s.pc + 2))
  | draw (x y : Reg) (n : Nibble) (cx cy : Byte) (rows : List Byte) :
      Effect s (.drw x y n) ((s.draw cx cy rows).setPc (s.pc + 2))
  | keySkip {i : Instr} (hi : queriesKeys i) (c : Bool) : Effect s i (s.tookKeys.setPc (s.pc + if c then 4 else 2))
  | keyRetry (x : Reg) : Effect s (.ldVxK x) s.tookKeys
  | keyFound (x : Reg) (b : Byte) : Effect s (.ldVxK x) ((s.tookKeys.setReg x b).setPc (s.pc + 2))
  | setDelay (x : Reg) (b : Byte) : Effect s (.ldDtVx x) ((s.setDt b).setPc (s.pc + 2))
  | setSound (x : Reg) (b : Byte) (e : Event) : Effect s (.ldStVx x) (((s.setSt b).emit e).setPc (s.pc + 2))

theorem skipIf_effect {i : Instr} {c : Bool} {s t : State} (h : skipIf c s = .next t) : Effect s i t := by
  rw [skipIf_eq] at h
  cases h
  exact .jump _ (by cases c <;> simp)

/-- An ALU instruction whose table row lists its destination, and `VF` where it has a flag. -/
theorem aluInto_effect {i : Instr} {op : AluOp} {x : Reg} {a b : Byte} {s t : State}
    (hi : ∀ k, writesReg i k = false → k ≠ x ∧ ((alu op a b).2 = none ∨ k ≠ flagReg))
    (h : aluInto op x a b s = .next t) : Effect s i t := by
  unfold aluInto at h
  rw [writeBack_eq_setRegs] at h
  cases h
  refine .regs _ fun k hk => ?_
  rw [← writeBack_eq_setRegs]
  exact reg_writeBack_ne (hi k hk).1 (hi k hk).2

theorem shiftInto_effect {i : Instr} {op : AluOp} {x : Reg} {s t : State} {f : Bool}
    (hflag : s.shiftFlag op x = s.setFlag f) (hi : ∀ k, writesReg i k = false → k ≠ x ∧ k ≠ flagReg)
    (h : shiftInto op x s = .next t) : Effect s i t := by
  simp only [shiftInto, hflag] at h
  cases h
  refine .regs ((s.v.set flagReg (flagByte f)).set x _) fun k hk => ?_
  obtain ⟨hx, hf⟩ := hi k hk
  exact (State.reg_setReg_ne (s.setFlag f) hx _).trans (reg_setFlag_ne hf s f)

theorem storeAtI_effect {i : Instr} {bs : List Byte} {s t : State} (hpos : 0 < bs.length)
    (hrun : storedRun i s = (s.i.toNat, bs.length)) (h : storeAtI bs s = .next t) : Effect s i t := by
  obtain ⟨hfit, rfl⟩ := storeAtI_next h
  exact .store bs hrun (by omega)

/-- Every next state of an instruction is one of these. -/
theorem exec_effect {i : Instr} {s t : State} (h : exec i s = .next t) : Effect s i t := by
  cases i with
  | cls => cases h; exact .clear
  | jp nnn => cases h; exact .jump _ (.inl ((addrOf_toNat nnn).trans_lt nnn.isLt))
  | jpV0 nnn => cases h; exact .jump _ (.inl ((offsetTarget_toNat ..).trans_lt (Nat.mod_lt _ (by decide))))
  | seK | sneK | seV | sneV => exact skipIf_effect h
  | call nnn =>
    obtain ⟨k, hk, rfl⟩ := execCall_next h
    exact .call hk
  | ret =>
    obtain ⟨k, hk, rfl⟩ := execRet_next h
    exact .ret hk
  | ldK | addK | ldV | orV | andV | xorV =>
    exact aluInto_effect (fun k hk => ⟨by simpa [writesReg] using hk, .inl rfl⟩) h
  | addV | sub | subn =>
    refine aluInto_effect (fun k hk => ?_) h
    obtain ⟨hx, hf⟩ : k ≠ _ ∧ k ≠ flagReg := by simpa [writesReg] using hk
    exact ⟨hx, .inr hf⟩
  | shr x => exact shiftInto_effect (shiftFlag_shr s x) (fun k hk => by simpa [writesReg] using hk) h
  | shl x => exact shiftInto_effect (shiftFlag_shl s x) (fun k hk => by simpa [writesReg] using hk) h
  | rnd x kk => cases h; exact .random x kk _
  | ldVxDt x =>
    cases h
    exact .regs (s.v.set x s.dt) fun k hk => State.reg_setReg_ne s (by simpa [writesReg] using hk) _
  | ldVxMem x =>
    obtain ⟨-, rfl⟩ := execLdVxMem_next h
    refine .regs _ fun k hk => ?_
    have hx : ¬ k ≤ x := by simpa [writesReg] using hk
    exact (reg_loadRegs_memGetRun ..).trans (if_neg hx)
  | ldI nnn => cases h; exact .index (.inl ⟨nnn, rfl⟩) _
  | addI x => cases h; exact .index (.inr (.inl ⟨x, rfl⟩)) _
  | ldF x =>
    obtain ⟨d, rfl⟩ := execLdF_next h
    exact .index (.inr (.inr ⟨x, rfl⟩)) _
  | ldB x => exact storeAtI_effect (bs := bcdDigits (s.reg x)) (by simp [bcdDigits]) rfl h
  | ldMemVx x => exact storeAtI_effect (bs := s.regsUpTo x) (by simp) (by simp [storedRun]) h
  | drw x y n =>
    obtain ⟨-, -, rfl⟩ := execDrw_next h
    exact .draw x y n ..
  | skp x =>
    obtain ⟨c, rfl⟩ := skipOnKey_next h
    exact .keySkip (.inl ⟨x, rfl⟩) c
  | sknp x =>
    obtain ⟨c, rfl⟩ := skipOnKey_next h
    exact .keySkip (.inr (.inl ⟨x, rfl⟩)) c
  | ldVxK x =>
    rw [exec, execLdVxK_eq] at h
    split at h <;> cases h
    · exact .keyRetry x
    · exact .keyFound x _
  | ldDtVx x => cases h; exact .setDelay x _
  | ldStVx x => cases h; exact .setSound x _ _

/-! ## Frames -/

/-- Settles O15 (R22): the register file changes in the groups of effects that write registers, each within its row. -/
theorem generalRegisterFrame : Obligations.GeneralRegisterFrame := by
  intro i s t k h hk
  cases exec_effect h with
  | regs v hv => exact hv k hk
  | random x => exact State.reg_setReg_ne s.tookByte (by simpa [writesReg] using hk) _
  | keyFound x => exact State.reg_setReg_ne s.tookKeys (by simpa [writesReg] using hk) _
  | draw => exact reg_setFlag_ne (x := k) (by simpa [writesReg] using hk) _ _
  | jump | call | ret | index | store | clear | keySkip | keyRetry | setDelay | setSound => rfl

/-- Settles O16 (R25 to R29): only the effects of the named instructions touch these registers, and `CALL` fills the
slot above the old `SP`. -/
theorem specialRegisterFrame : Obligations.SpecialRegisterFrame := by
  intro i s t h
  cases exec_effect h with
  | index hi => exact ⟨fun hn => absurd hi hn, fun _ => rfl, fun _ _ => rfl, fun _ => rfl, fun _ => rfl⟩
  | call hk =>
    refine ⟨fun _ => rfl, fun hn => absurd (.inl ⟨_, rfl⟩) hn, fun j hj => ?_, fun _ => rfl, fun _ => rfl⟩
    have hne : (j.val : Int) ≠ s.sp.toInt + 1 := hj.resolve_left fun hcall => hcall _ rfl
    refine (getElem_setSlot ..).trans (if_neg ?_)
    rintro rfl
    exact hne (slotOf_succ_eq_some.mp hk)
  | ret => exact ⟨fun _ => rfl, fun hn => absurd (.inr rfl) hn, fun _ _ => rfl, fun _ => rfl, fun _ => rfl⟩
  | setDelay x => exact ⟨fun _ => rfl, fun _ => rfl, fun _ _ => rfl, fun hn => absurd rfl (hn x), fun _ => rfl⟩
  | setSound x => exact ⟨fun _ => rfl, fun _ => rfl, fun _ _ => rfl, fun _ => rfl, fun hn => absurd rfl (hn x)⟩
  | jump | regs | random | store | clear | draw | keySkip | keyRetry | keyFound =>
    exact ⟨fun _ => rfl, fun _ => rfl, fun _ _ => rfl, fun _ => rfl, fun _ => rfl⟩

/-- Settles O17 (R50, R59): the only effect on memory is the store of the run, which leaves every other address
alone. -/
theorem memoryFrame : Obligations.MemoryFrame := by
  intro i s t a h ha
  cases exec_effect h with
  | store bs hrun =>
    rw [hrun] at ha
    exact memGet_memPutRun_outside s.mem bs ha
  | jump | call | ret | regs | random | index | clear | draw | keySkip | keyRetry | keyFound | setDelay | setSound => rfl

theorem exec_framebuffer {i : Instr} {s t : State} (h : exec i s = .next t) (hi : ¬ writesFb i) : t.fb = s.fb := by
  cases exec_effect h with
  | clear => exact absurd (.inl rfl) hi
  | draw x y n => exact absurd (.inr ⟨x, y, n, rfl⟩) hi
  | _ => rfl

theorem exec_no_event {i : Instr} {s t : State} (h : exec i s = .next t) (hi : ¬ writesFb i)
    (hst : ∀ x, i ≠ .ldStVx x) : t.events = s.events := by
  cases exec_effect h with
  | clear => exact absurd (.inl rfl) hi
  | draw x y n => exact absurd (.inr ⟨x, y, n, rfl⟩) hi
  | setSound x => exact absurd rfl (hst x)
  | _ => rfl

theorem exec_keyQueue {i : Instr} {s t : State} (h : exec i s = .next t) (hi : ¬ queriesKeys i) :
    t.keyQueue = s.keyQueue := by
  cases exec_effect h with
  | keySkip hq => exact absurd hq hi
  | keyRetry x | keyFound x => exact absurd (.inr (.inr ⟨x, rfl⟩)) hi
  | _ => rfl

theorem exec_byteQueue {i : Instr} {s t : State} (h : exec i s = .next t) (hi : ∀ x kk, i ≠ .rnd x kk) :
    t.byteQueue = s.byteQueue := by
  cases exec_effect h with
  | random x kk => exact absurd rfl (hi x kk)
  | _ => rfl

theorem exec_draws {i : Instr} {s t : State} (h : exec i s = .next t) (hq : ¬ queriesKeys i)
    (hr : ∀ x kk, i ≠ .rnd x kk) : t.draws = s.draws := by
  cases exec_effect h with
  | keySkip hi => exact absurd hi hq
  | keyRetry x | keyFound x => exact absurd (.inr (.inr ⟨x, rfl⟩)) hq
  | random x kk => exact absurd rfl (hr x kk)
  | _ => rfl

/-- No instruction touches the accumulators, the run status or the schedule. -/
theorem exec_hidden {i : Instr} {s t : State} (h : exec i s = .next t) :
    t.accDt = s.accDt ∧ t.accSt = s.accSt ∧ t.accCpu = s.accCpu ∧ t.status = s.status ∧
      t.moves = s.moves ∧ t.rounds = s.rounds := by
  cases exec_effect h <;> exact ⟨rfl, rfl, rfl, rfl, rfl, rfl⟩

theorem exec_status {i : Instr} {s t : State} (h : exec i s = .next t) : t.status = s.status := by
  obtain ⟨-, -, -, hstatus, -, -⟩ := exec_hidden h
  exact hstatus

/-- Settles O18: the frames of the framebuffer, the events, the inputs and the hidden state. -/
theorem displayAndHiddenFrame : Obligations.DisplayAndHiddenFrame := fun _ _ _ h =>
  ⟨exec_framebuffer h, exec_no_event h, exec_keyQueue h, exec_byteQueue h, exec_draws h, exec_hidden h⟩

/-! ## The invariant -/

theorem faultPrecise_of_running {s : State} (h : s.status = .running) : s.faultPrecise := by
  simp [State.faultPrecise, h]

theorem toNat_add_small {w k : Word} {m : Nat} (hw : w.toNat + k.toNat ≤ m) : (w + k).toNat ≤ m := by
  rw [BitVec.toNat_add]
  exact (Nat.mod_le _ _).trans hw

/-- An instruction fetched from inside memory keeps the invariant. -/
theorem exec_keeps_inv {i : Instr} {s t : State} (hinv : s.Inv) (hrunning : s.status = .running)
    (hpc : s.pc.toNat + 1 < Params.memSize) (h : exec i s = .next t) : t.Inv := by
  have hfault : t.faultPrecise := faultPrecise_of_running ((exec_status h).trans hrunning)
  have hmax : s.pc.toNat ≤ 0xFFE := Nat.le_of_lt_succ (Nat.lt_of_succ_lt_succ hpc)
  have hnext : (s.pc + 2).toNat ≤ 0x1003 := toNat_add_small (Nat.add_le_add_right hmax 2 |>.trans (by decide))
  have hskip : (s.pc + 4).toNat ≤ 0x1003 := toNat_add_small (Nat.add_le_add_right hmax 4 |>.trans (by decide))
  obtain ⟨hmem, hsp, hpc', hstack, hacc, -⟩ := hinv
  cases exec_effect h with
  | jump w hw =>
    refine ⟨hmem, hsp, ?_, hstack, hacc, hfault⟩
    obtain hw | rfl | rfl := hw
    · exact hw.le.trans (by decide)
    · exact hnext
    · exact hskip
  | @call nnn k hk =>
    refine ⟨hmem, ?_, ?_, fun j => ?_, hacc, hfault⟩
    · have htop := slotOf_succ_eq_some.mp hk
      have := k.isLt
      show -1 ≤ (s.sp + 1).toInt ∧ (s.sp + 1).toInt ≤ 15
      rw [toInt_succ_of_slot hk]
      omega
    · exact ((addrOf_toNat nnn).trans_lt nnn.isLt).le.trans (by decide)
    · refine (congrArg (·.toNat + 1) (getElem_setSlot ..)).trans_lt ?_
      split
      · exact hpc
      · exact hstack j
  | @ret k hk =>
    refine ⟨hmem, ?_, toNat_add_small ?_, hstack, hacc, hfault⟩
    · have := slotOf_eq_some_toInt.mp hk
      have := k.isLt
      show -1 ≤ (s.sp - 1).toInt ∧ (s.sp - 1).toInt ≤ 15
      rw [toInt_pred_of_slot hk]
      omega
    · exact (Nat.add_le_add_right (hstack k).le 1).trans (by decide)
  | store bs hrun hfit => exact ⟨memPutRun_wf hmem hfit, hsp, hnext, hstack, hacc, hfault⟩
  | keySkip hi c =>
    refine ⟨hmem, hsp, ?_, hstack, hacc, hfault⟩
    cases c
    · exact hnext
    · exact hskip
  | keyRetry => exact ⟨hmem, hsp, hpc', hstack, hacc, hfault⟩
  | regs | random | index | clear | draw | keyFound | setDelay | setSound =>
    exact ⟨hmem, hsp, hnext, hstack, hacc, hfault⟩

/-- A fault of the fetch or of the decoder names the `PC`. -/
theorem fetchDecode_fault_pc {s : State} {f : Fault} (h : fetchDecode s = .error f) : f.pc = some s.pc := by
  obtain ⟨-, rfl⟩ | ⟨-, -, rfl⟩ := fetchDecode_error.mp h <;> rfl

/-- A fault of an instruction names the `PC`. -/
theorem exec_fault_pc {i : Instr} {s : State} {f : Fault} (h : exec i s = .fault f) : f.pc = some s.pc := by
  have answer := exec_answer i s
  rw [h] at answer
  cases answer <;> rfl

theorem takeFault_keeps_inv {s : State} {f : Fault} (hinv : s.Inv) (hf : f.pc = none ∨ f.pc = some s.pc) :
    (s.takeFault f).Inv :=
  { hinv with fault := hf }

theorem cpuStep_keeps_inv {s t : State} (hinv : s.Inv) (hrunning : s.status = .running) (h : cpuStep s = .next t) :
    t.Inv := by
  obtain ⟨f, hf, rfl⟩ | ⟨i, hi, hexec⟩ | ⟨i, f, -, hexec, rfl⟩ := cpuStep_next h
  · exact takeFault_keeps_inv hinv (.inr (fetchDecode_fault_pc hf))
  · exact exec_keeps_inv hinv hrunning (fetchDecode_ok.mp hi).1 hexec
  · exact takeFault_keeps_inv hinv (.inr (exec_fault_pc hexec))

theorem timerTicks_keeps_inv (u : TimerUnit) (n : Nat) {s : State} (hinv : s.Inv) : (timerTicks u n s).Inv := by
  rw [timerTicks_keeps]
  exact { hinv with }

theorem setAcc_keeps_inv (u : TimerUnit) {n : Nat} {s : State} (hinv : s.Inv) (hn : n < Params.timerPeriod) :
    (s.setAcc u n).Inv := by
  obtain ⟨hdt, hst⟩ := hinv.acc
  cases u with
  | delay => exact { hinv with acc := ⟨hn, hst⟩ }
  | sound => exact { hinv with acc := ⟨hdt, hn⟩ }

/-- An update leaves less than one period in the accumulator (R212). -/
theorem timerUpdate_keeps_inv (u : TimerUnit) (delta : Nat) {s : State} (hinv : s.Inv) : (timerUpdate u delta s).Inv :=
  timerTicks_keeps_inv u _ (setAcc_keeps_inv u hinv (Nat.mod_lt _ (by decide)))

theorem status_timerUpdate (u : TimerUnit) (delta : Nat) (s : State) : (timerUpdate u delta s).status = s.status := by
  rw [timerUpdate_frame]
  simp

theorem accCpu_timerUpdate (u : TimerUnit) (delta : Nat) (s : State) : (timerUpdate u delta s).accCpu = s.accCpu := by
  rw [timerUpdate_frame]
  simp

/-- The state of a loop iteration when both timers are updated and the CPU accumulator has grown. -/
def timedState (delta : Nat) (s : State) : State :=
  { timerUpdate .sound delta (timerUpdate .delay delta s) with accCpu := s.accCpu + delta }

theorem status_timedState (delta : Nat) (s : State) : (timedState delta s).status = s.status :=
  (status_timerUpdate ..).trans (status_timerUpdate ..)

/-- With no stop flag an iteration goes on from `timedState`, with a CPU step when its period is reached (R247). -/
theorem iteration_unstopped (delta : Nat) (s : State) :
    iteration delta false s =
      if Params.cpuTickPeriod ≤ s.accCpu + delta then spendCpuPeriod (cpuStep (timedState delta s))
      else .next (timedState delta s) := by
  have hacc : (timerUpdate .sound delta (timerUpdate .delay delta s)).accCpu = s.accCpu :=
    (accCpu_timerUpdate ..).trans (accCpu_timerUpdate ..)
  simp only [iteration, hacc, State.setAccCpu_accCpu]
  rfl

theorem spendCpuPeriod_next {r : Result} {t : State} (h : spendCpuPeriod r = .next t) :
    ∃ u, r = .next u ∧ t = u.setAccCpu (u.accCpu - Params.cpuTickPeriod) := by
  cases r <;> cases h
  exact ⟨_, rfl, rfl⟩

theorem timedState_keeps_inv (delta : Nat) {s : State} (hinv : s.Inv) : (timedState delta s).Inv :=
  { timerUpdate_keeps_inv .sound delta (timerUpdate_keeps_inv .delay delta hinv) with }

theorem iteration_keeps_inv {delta : Nat} {stopFlag : Bool} {s t : State} (hinv : s.Inv)
    (hrunning : s.status = .running) (h : iteration delta stopFlag s = .next t) : t.Inv := by
  cases stopFlag with
  | true => cases h; exact { hinv with fault := trivial }
  | false =>
    rw [iteration_unstopped] at h
    split at h
    · obtain ⟨u, hcpu, rfl⟩ := spendCpuPeriod_next h
      exact { cpuStep_keeps_inv (timedState_keeps_inv delta hinv) ((status_timedState ..).trans hrunning) hcpu with }
    · cases h
      exact timedState_keeps_inv delta hinv

theorem perform_keeps_inv {m : Move} {s t : State} (hinv : s.Inv) (hrunning : s.status = .running)
    (h : perform m s = .next t) : t.Inv := by
  cases m with
  | cpu => exact cpuStep_keeps_inv hinv hrunning h
  | tick u => cases h; exact timerTicks_keeps_inv u 1 hinv
  | update u delta => cases h; exact timerUpdate_keeps_inv u delta hinv
  | iteration delta stopFlag => exact iteration_keeps_inv hinv hrunning h
  | stop => cases h; exact { hinv with fault := trivial }
  | resourceFailure => cases h; exact takeFault_keeps_inv hinv (.inl rfl)

/-- Settles O11: a step is a move taken in a running state, and every move keeps the invariant. -/
theorem everyStepKeepsInv : Obligations.EveryStepKeepsInv := by
  intro s t hinv h
  obtain ⟨hrunning, hmove⟩ := step_next h
  exact perform_keeps_inv (s := s.tookMove) { hinv with } hrunning hmove

/-- Settles O12 (R36): no byte is listed, and the stack and the accumulators are zero. -/
theorem resetMeetsInv : Obligations.ResetMeetsInv where
  mem := ⟨.nil, by simp [State.reset]⟩
  sp := by decide
  pc := by decide
  stack := by decide
  acc := by decide
  fault := trivial

end Sys2Proof.Machine
end

section
namespace Sys2Proof.Machine

/-! ## The CPU step by what is fetched (spec/40_control_flow.md R100) -/

theorem cpuStep_of_ok {s : State} {i : Instr} (h : fetchDecode s = .ok i) : cpuStep s = settle s (exec i s) := by
  simp only [cpuStep, h]

theorem cpuStep_of_error {s : State} {f : Fault} (h : fetchDecode s = .error f) :
    cpuStep s = .next { s with status := .faulted f } := by
  simp only [cpuStep, h]
  rfl

theorem decode_pair_ok {a b : Byte} {i : Instr} : decode [a, b] = .ok (i, []) ↔ decodeWord (a ++ b) = some i := by
  simp only [decode, wordOfBytes]
  split <;> simp_all

/-- Settles O6 (R100, D7): the fetch sees neither the schedule nor anything else that taking a move changes. -/
theorem stepRunsDecodedInstruction : Obligations.StepRunsDecodedInstruction := by
  intro s i hrunning hcpu hpc hdecode
  have hfetch : fetchDecode s.tookMove = .ok i := fetchDecode_ok.mpr ⟨hpc, decode_pair_ok.mp hdecode⟩
  rw [step_cpu hrunning hcpu, cpuStep_of_ok hfetch]
  refine ⟨fun t h => ?_, fun f h => ?_, rfl, fun ms h => tookMove_of_cons h⟩
  · rw [h]
    rfl
  · rw [h]
    rfl

theorem append_eq_ofNat (a b : Byte) : a ++ b = BitVec.ofNat 16 (a.toNat * 256 + b.toNat) := by
  have hword : a.toNat * 256 + b.toNat = (a ++ b).toNat := (toNat_append_add a b).symm
  rw [hword, BitVec.ofNat_toNat, BitVec.setWidth_eq]

/-- Settles O7 (R202): the decoder has no instruction for a listed word, so the fetch answers its record. -/
theorem illegalWordFaults : Obligations.IllegalWordFaults := by
  intro s hrunning hcpu hpc hillegal
  have hword : (memGet s.mem s.pc.toNat ++ memGet s.mem (s.pc.toNat + 1)).toNat = _ := toNat_append_add ..
  have hnone := (illegalWordsAreThoseListed _).mpr (hword ▸ hillegal)
  rw [← append_eq_ofNat, step_cpu hrunning hcpu]
  exact cpuStep_of_error (fetchDecode_error.mpr (.inr ⟨hpc, hnone, rfl⟩))

/-- Settles O8 (R205, D7): a state that an instruction leaves still runs, so the step took a fault. -/
theorem faultCommitsNothing : Obligations.FaultCommitsNothing := by
  intro s t f hrunning hcpu hstep hfaulted
  have hhost : step t = .fault f := by simp only [step, machineStep, hfaulted]
  rw [step_cpu hrunning hcpu] at hstep
  obtain ⟨g, hfetch, rfl⟩ | ⟨i, -, hexec⟩ | ⟨i, g, -, hexec, rfl⟩ := cpuStep_next hstep
  · cases hfaulted
    exact ⟨rfl, fetchDecode_fault_pc hfetch, hhost⟩
  · cases hfaulted.symm.trans ((exec_status hexec).trans hrunning)
  · cases hfaulted
    exact ⟨rfl, exec_fault_pc (s := s.tookMove) hexec, hhost⟩

/-! ## Construction (spec/70_reset_and_hazards.md R240, R241) -/

theorem construct_of_fits {program : List Byte} (h : program.length ≤ 3584) :
    construct program = .ok (State.reset.setMem (memPutRun [] 0x200 program)) :=
  if_neg (Nat.not_lt_of_le h)

/-- Memory that nothing has written holds the font, and `MEM_INIT` elsewhere. -/
theorem memGet_nil (a : Nat) : memGet [] a = (Params.fontData[a]?).getD (Config.memInit a) := rfl

theorem memGet_nil_font {a : Nat} (h : a < 80) : some (memGet [] a) = Params.fontData[a]? := by
  have hlen : a < Params.fontData.length := h
  rw [memGet_nil, List.getElem?_eq_getElem hlen, Option.getD_some]

theorem memGet_nil_free {a : Nat} (h : 80 ≤ a) : memGet [] a = Config.memInit a := by
  have hlen : Params.fontData.length ≤ a := h
  rw [memGet_nil, List.getElem?_eq_none hlen, Option.getD_none]

theorem reset_reg (k : Reg) : State.reset.reg k = 0 := by
  revert k
  decide

theorem reset_stack (k : Fin 16) : State.reset.stack[k] = 0 := by
  revert k
  decide

theorem memoryWf_nil : Memory.wf [] := resetMeetsInv.mem

/-- Settles O14 (R241): the size check is the first thing construction does. -/
theorem oversizedProgramFailsConstruction : Obligations.OversizedProgramFailsConstruction := fun _ =>
  ⟨fun h => if_pos h, fun h => ⟨_, construct_of_fits h⟩⟩

/-- Settles O13 (R36): the reset state with the program's run stored, read inside and outside the run. -/
theorem constructionGivesResetValues : Obligations.ConstructionGivesResetValues := by
  intro program hlen
  have hfit : 0x200 + program.length ≤ Params.memSize := Nat.add_le_add_left hlen 0x200
  have hinv : (State.reset.setMem (memPutRun [] 0x200 program)).Inv :=
    { resetMeetsInv with mem := memPutRun_wf memoryWf_nil hfit }
  refine ⟨_, construct_of_fits hlen, hinv, reset_reg, rfl, rfl, rfl, rfl, rfl, reset_stack, pixel_clear,
    rfl, rfl, rfl, rfl, rfl, fun a ha => ?_, fun k hk => ?_, fun a hfont ha => ?_⟩
  · rw [State.setMem_mem, memGet_memPutRun_outside _ _ (.inl (by omega)), memGet_nil_font ha]
  · rw [State.setMem_mem, memGet_memPutRun_inside memoryWf_nil hfit hk, List.getElem?_eq_getElem hk]
  · rw [State.setMem_mem, memGet_memPutRun_outside _ _ ha, memGet_nil_free hfont]

/-! ## The host's loop (spec/70_reset_and_hazards.md R247) and the schedule (spec/60_exceptions.md R220) -/

theorem cpuStep_accCpu {s t : State} (h : cpuStep s = .next t) : t.accCpu = s.accCpu := by
  obtain ⟨f, -, rfl⟩ | ⟨i, -, hexec⟩ | ⟨i, f, -, -, rfl⟩ := cpuStep_next h
  · rfl
  · obtain ⟨-, -, hacc, -⟩ := exec_hidden hexec
    exact hacc
  · rfl

theorem cpuStep_moves {s t : State} (h : cpuStep s = .next t) : t.moves = s.moves := by
  obtain ⟨f, -, rfl⟩ | ⟨i, -, hexec⟩ | ⟨i, f, -, -, rfl⟩ := cpuStep_next h
  · rfl
  · obtain ⟨-, -, -, -, hmoves, -⟩ := exec_hidden hexec
    exact hmoves
  · rfl

theorem timerUpdate_moves (u : TimerUnit) (delta : Nat) (s : State) : (timerUpdate u delta s).moves = s.moves := by
  rw [timerUpdate_frame]
  simp

theorem timedState_moves (delta : Nat) (s : State) : (timedState delta s).moves = s.moves :=
  (timerUpdate_moves ..).trans (timerUpdate_moves ..)

theorem iteration_moves {delta : Nat} {stopFlag : Bool} {s t : State} (h : iteration delta stopFlag s = .next t) :
    t.moves = s.moves := by
  cases stopFlag with
  | true => cases h; rfl
  | false =>
    rw [iteration_unstopped] at h
    split at h
    · obtain ⟨u, hcpu, rfl⟩ := spendCpuPeriod_next h
      exact (cpuStep_moves hcpu).trans (timedState_moves ..)
    · cases h
      exact timedState_moves ..

/-- No move changes which moves follow it. -/
theorem perform_moves {m : Move} {s t : State} (h : perform m s = .next t) : t.moves = s.moves := by
  cases m with
  | cpu => exact cpuStep_moves h
  | tick u => cases h; rw [timerTick_keeps]
  | update u delta => cases h; exact timerUpdate_moves u delta s
  | iteration delta stopFlag => exact iteration_moves h
  | stop | resourceFailure => cases h; rfl

/-- A step leaves the moves after the one it took. -/
theorem step_lined {s t : State} (h : step s = .next t) : s.lined = s.nextMove :: t.moves := by
  obtain ⟨-, hmove⟩ := step_next h
  rw [lined_eq, perform_moves hmove]

section
variable {σ : Nat → State} (hrun : ∀ n, step (σ n) = .next (σ (n + 1)))
include hrun

/-- An infinite run comes to every move that is lined up. -/
theorem reaches_lined {m : Move} {n : Nat} (h : m ∈ (σ n).lined) : ∃ k, n ≤ k ∧ (σ k).nextMove = m := by
  generalize hl : (σ n).lined = l at h
  induction l generalizing n with
  | nil => cases h
  | cons a l ih =>
    obtain ⟨rfl, hnext⟩ : (σ n).nextMove = a ∧ (σ (n + 1)).moves = l :=
      List.cons.inj ((step_lined (hrun n)).symm.trans hl)
    obtain rfl | hm := List.mem_cons.mp h
    · exact ⟨n, n.le_refl, rfl⟩
    · have hlined : (σ (n + 1)).lined = l := by
        rw [State.lined, if_neg (hnext ▸ List.ne_nil_of_mem hm), hnext]
      obtain ⟨k, hk, e⟩ := ih hlined hm
      exact ⟨k, Nat.le_of_succ_le hk, e⟩

/-- An infinite run uses up the moves that are lined up, so it comes to the next free round. -/
theorem reaches_free_round (n : Nat) : ∃ k, n ≤ k ∧ (σ k).moves = [] := by
  generalize hl : (σ n).moves = l
  induction l generalizing n with
  | nil => exact ⟨n, n.le_refl, hl⟩
  | cons a l ih =>
    have hnext : (σ (n + 1)).moves = l := by
      have hlined := step_lined (hrun n)
      rw [State.lined, if_neg (hl ▸ List.cons_ne_nil a l), hl] at hlined
      exact (List.cons.inj hlined).2.symm
    obtain ⟨k, hk, e⟩ := ih (n + 1) hnext
    exact ⟨k, Nat.le_of_succ_le hk, e⟩

/-- Weak fairness: every free round holds a move of every agent. -/
theorem reaches_agent (a : Config.Agent) (n : Nat) : ∃ m, n ≤ m ∧ (σ m).nextMove = agentMove a := by
  obtain ⟨k, hk, hfree⟩ := reaches_free_round hrun n
  have hmem : agentMove a ∈ (σ k).lined := lined_of_nil hfree ▸ mem_freeMoves _ a
  obtain ⟨m, hm, e⟩ := reaches_lined hrun hmem
  exact ⟨m, hk.trans hm, e⟩

end

/-- Settles O59 (R247, R227, R220): the iteration by cases on the stop flag and the CPU period, the stop request as a
move, and the fairness of the free rounds. -/
theorem loopIteration : Obligations.LoopIteration := by
  refine ⟨fun s u delta stopFlag hrunning hmove hu => ?_, fun s hrunning hmove => ?_, fun σ => reaches_agent⟩
  · obtain rfl : u = timedState delta s.tookMove := hu
    rw [step_move hrunning, hmove]
    refine ⟨?_, ?_, ?_⟩
    · rintro rfl
      rfl
    · rintro rfl hshort
      exact (iteration_unstopped ..).trans (if_neg (Nat.not_le_of_lt hshort))
    · rintro rfl hdue t hcpu
      have hacc : t.accCpu = s.accCpu + delta := cpuStep_accCpu hcpu
      refine (iteration_unstopped ..).trans ((if_pos hdue).trans ?_)
      rw [hcpu, ← hacc]
      rfl
  · rw [step_move hrunning, hmove]
    exact ⟨_, rfl, rfl, fun u => noStepUnlessRunning _ u (.inl rfl)⟩

end Sys2Proof.Machine
end

section
namespace Sys2Proof.Machine

/-! ## Reads of hidden state (spec/10_state.md R29, R34) -/

/-- A change of the accumulators and of `ST`, each by its old value. -/
structure HiddenChange where
  accDt : Nat → Nat
  accSt : Nat → Nat
  accCpu : Nat → Nat
  st : Byte → Byte

/-- The state with the accumulators and `ST` changed. -/
def HiddenChange.apply (c : HiddenChange) (s : State) : State :=
  { s with accDt := c.accDt s.accDt, accSt := c.accSt s.accSt, accCpu := c.accCpu s.accCpu, st := c.st s.st }

namespace HiddenChange

variable (c : HiddenChange)

theorem writeBack_apply (s : State) (x : Reg) (r : Byte × Option Bool) :
    (c.apply s).writeBack x r = c.apply (s.writeBack x r) := by
  unfold State.writeBack
  split <;> rfl

theorem shiftFlag_apply (s : State) (op : AluOp) (x : Reg) : (c.apply s).shiftFlag op x = c.apply (s.shiftFlag op x) := by
  have hreg : (c.apply s).reg x = s.reg x := rfl
  unfold State.shiftFlag
  rw [hreg]
  split <;> rfl

theorem advance_apply (s : State) : advance (c.apply s) = mapNext c.apply (advance s) := rfl

theorem aluInto_apply (op : AluOp) (x : Reg) (a b : Byte) (s : State) :
    aluInto op x a b (c.apply s) = mapNext c.apply (aluInto op x a b s) := by
  unfold aluInto
  rw [writeBack_apply, advance_apply]

theorem shiftInto_apply (op : AluOp) (x : Reg) (s : State) :
    shiftInto op x (c.apply s) = mapNext c.apply (shiftInto op x s) := by
  simp only [shiftInto, shiftFlag_apply]
  rfl

theorem skipIf_apply (b : Bool) (s : State) : skipIf b (c.apply s) = mapNext c.apply (skipIf b s) := by
  cases b <;> rfl

theorem skipOnKey_apply (x : Reg) (pressed : Bool) (s : State) :
    skipOnKey x pressed (c.apply s) = mapNext c.apply (skipOnKey x pressed s) := by
  obtain hk | hk := Nat.lt_or_ge (s.reg x).toNat 16
  · rw [skipOnKey_of_key (k := ⟨_, hk⟩) pressed rfl, skipOnKey_of_key (s := c.apply s) (k := ⟨_, hk⟩) pressed rfl]
    exact skipIf_apply c _ s.tookKeys
  · rw [skipOnKey_of_large pressed hk, skipOnKey_of_large (s := c.apply s) pressed hk]
    rfl

theorem storeAtI_apply (bs : List Byte) (s : State) :
    storeAtI bs (c.apply s) = mapNext c.apply (storeAtI bs s) := by
  rw [storeAtI_eq, storeAtI_eq, apply_ite (mapNext c.apply)]
  rfl

theorem execRet_apply (s : State) : execRet (c.apply s) = mapNext c.apply (execRet s) := by
  cases hk : slotOf s.sp with
  | none => rw [execRet_of_empty hk, execRet_of_empty (s := c.apply s) hk]; rfl
  | some k => rw [execRet_of_slot hk, execRet_of_slot (s := c.apply s) hk]; rfl

theorem execCall_apply (nnn : Addr) (s : State) :
    execCall nnn (c.apply s) = mapNext c.apply (execCall nnn s) := by
  cases hk : slotOf (s.sp + 1) with
  | none => rw [execCall_of_full hk, execCall_of_full (s := c.apply s) hk]; rfl
  | some k => rw [execCall_of_slot hk, execCall_of_slot (s := c.apply s) hk]; rfl

theorem execLdF_apply (x : Reg) (s : State) : execLdF x (c.apply s) = mapNext c.apply (execLdF x s) := by
  obtain hd | hd := Nat.lt_or_ge (s.reg x).toNat 16
  · rw [execLdF_of_digit (d := ⟨_, hd⟩) rfl, execLdF_of_digit (s := c.apply s) (d := ⟨_, hd⟩) rfl]
    rfl
  · rw [execLdF_of_large hd, execLdF_of_large (s := c.apply s) hd]
    rfl

theorem execLdVxMem_apply (x : Reg) (s : State) :
    execLdVxMem x (c.apply s) = mapNext c.apply (execLdVxMem x s) := by
  obtain hfit | hout := Nat.lt_or_ge (s.i.toNat + x.val) Params.memSize
  · rw [execLdVxMem_of_fits hfit, execLdVxMem_of_fits (s := c.apply s) hfit]
    rfl
  · rw [execLdVxMem_of_out hout, execLdVxMem_of_out (s := c.apply s) hout]
    rfl

theorem execDrw_apply (x y : Reg) (n : Nibble) (s : State) :
    execDrw x y n (c.apply s) = mapNext c.apply (execDrw x y n s) := by
  by_cases hn : n = 0
  · subst hn
    rfl
  · obtain hfit | hout := Nat.lt_or_ge (s.i.toNat + n.toNat - 1) Params.memSize
    · rw [execDrw_of_fits hn hfit, execDrw_of_fits (s := c.apply s) hn hfit]
      rfl
    · rw [execDrw_of_out hn hout, execDrw_of_out (s := c.apply s) hn hout]
      rfl

theorem execLdVxK_apply (x : Reg) (s : State) :
    execLdVxK x (c.apply s) = mapNext c.apply (execLdVxK x s) := by
  have hkeys : (c.apply s).keys = s.keys := rfl
  rw [execLdVxK_eq, execLdVxK_eq, hkeys]
  cases lowestKey s.keys <;> rfl

/-- An instruction answers the same with other accumulators and another `ST`, and keeps them, but for `LD ST,Vx`, which
overwrites `ST`. -/
theorem exec_apply {i : Instr} (hst : (∃ x, i = .ldStVx x) → ∀ b, c.st b = b) (s : State) :
    exec i (c.apply s) = mapNext c.apply (exec i s) := by
  cases i with
  | ldK | addK | ldV | orV | andV | xorV | addV | sub | subn => exact aluInto_apply c _ _ _ _ s
  | rnd => exact aluInto_apply c _ _ _ _ s.tookByte
  | shr | shl => exact shiftInto_apply c _ _ s
  | seK | sneK | seV | sneV => exact skipIf_apply c _ s
  | skp | sknp => exact skipOnKey_apply c _ _ s
  | ldB | ldMemVx => exact storeAtI_apply c _ s
  | ret => exact execRet_apply c s
  | call nnn => exact execCall_apply c nnn s
  | ldF x => exact execLdF_apply c x s
  | ldVxMem x => exact execLdVxMem_apply c x s
  | drw x y n => exact execDrw_apply c x y n s
  | ldVxK x => exact execLdVxK_apply c x s
  | ldStVx x =>
    refine congrArg Host.Outcome.next ?_
    simp only [apply, State.emit, State.setSt, State.setPc, hst ⟨x, rfl⟩]
    rfl
  | cls | jp | jpV0 | ldI | addI | ldVxDt | ldDtVx => rfl

end HiddenChange

/-- Settles O19 (R34): the change that overwrites the accumulators and keeps `ST`. -/
theorem accumulatorsAreInvisible : Obligations.AccumulatorsAreInvisible := fun _ s a b c =>
  HiddenChange.exec_apply ⟨fun _ => a, fun _ => b, fun _ => c, id⟩ (fun _ _ => rfl) s

/-- Settles O20 (R29): the change that overwrites `ST` alone; `LD ST,Vx` overwrites it again. -/
theorem soundTimerIsNotRead : Obligations.SoundTimerIsNotRead := fun _ s b =>
  ⟨fun hne => HiddenChange.exec_apply ⟨id, id, id, fun _ => b⟩ (fun ⟨x, hx⟩ => absurd hx (hne x)) s, fun _ => rfl⟩

end Sys2Proof.Machine
end

section
namespace Sys2Proof.Machine

/-! ## Control transfer (spec/40_control_flow.md R101 to R109) -/

/-- Settles O21 (R102): the target is the address field, zero-extended. -/
theorem jumpGoesToAddress : Obligations.JumpGoesToAddress := fun nnn _ =>
  ⟨decodeWord_wordA rfl, _, rfl, addrOf_toNat nnn, rfl⟩

/-- Settles O22 (R104): the target's value is the sum modulo 4096. -/
theorem offsetJumpWraps : Obligations.OffsetJumpWraps := fun nnn s =>
  ⟨decodeWord_wordA rfl, _, rfl, offsetTarget_toNat nnn (s.reg 0), rfl⟩

/-- Settles O23 (R103, D9): with `SP` below 15 the next `SP` names a slot, which takes the `PC`. -/
theorem callPushesItsAddress : Obligations.CallPushesItsAddress := by
  intro nnn s ⟨hlow, _⟩ hroom
  obtain ⟨n, hn⟩ := Int.eq_ofNat_of_zero_le (show 0 ≤ s.sp.toInt + 1 by omega)
  have hslot : slotOf (s.sp + 1) = some ⟨n, by omega⟩ := slotOf_succ_eq_some.mpr hn.symm
  refine ⟨_, execCall_of_slot hslot, toInt_succ_of_slot hslot, addrOf_toNat nnn, fun j => ?_, rfl⟩
  refine (getElem_setSlot ..).trans ?_
  simp only [hn, Fin.ext_iff, Nat.cast_inj]
  rfl

/-- Settles O24 (R101, D8): the slot `SP` names is the one popped. -/
theorem returnGoesPastTheCall : Obligations.ReturnGoesPastTheCall := by
  intro s k hk
  have hslot := slotOf_eq_some_toInt.mpr hk
  exact ⟨_, execRet_of_slot hslot, rfl, toInt_pred_of_slot hslot, rfl⟩

/-- Settles O25 (R101, R103): `RET` pops the slot that `CALL` filled. -/
theorem returnUndoesCall : Obligations.ReturnUndoesCall := by
  intro nnn s t u hcall hsp hstack
  obtain ⟨k, hk, rfl⟩ := execCall_next hcall
  have hslot : slotOf u.sp = some k := hsp ▸ hk
  refine ⟨_, execRet_of_slot hslot, ?_, ?_⟩
  · show u.stack[k] + 2 = s.pc + 2
    rw [hstack]
    exact congrArg (· + 2) ((getElem_setSlot ..).trans (if_pos rfl))
  · show u.sp - 1 = s.sp
    rw [hsp]
    exact add_sub_cancel_right s.sp 1

/-- Settles O26 (R105 to R109): each skip is `skipIf` on the equality of its operands, or on its opposite. -/
theorem registerSkips : Obligations.RegisterSkips := fun _ _ kk s =>
  ⟨decodeWord_wordXK kk rfl, decodeWord_wordXK kk rfl, decodeWord_wordXYN 0x0 rfl, decodeWord_wordXYN 0x0 rfl,
    skipIf_beq _ kk s, skipIf_bne _ kk s, skipIf_beq _ _ s, skipIf_bne _ _ s⟩

/-! ## Faults (spec/60_exceptions.md R201, R203) -/

theorem storeAtI_of_out {bs : List Byte} {s : State} (h : Params.memSize ≤ s.i.toNat + bs.length - 1) :
    storeAtI bs s = .fault (.outOfBounds .write s.pc s.i) :=
  (storeAtI_eq bs s).trans (if_pos h)

/-- Settles O27 (R201, D6): each access with its own bounds check, and the two ends of the stack. -/
theorem outOfBoundsConditions : Obligations.OutOfBoundsConditions := by
  refine fun s => ⟨fun hrunning hcpu hout => ?_, fun x y n hn hout => execDrw_of_out hn hout,
    fun x hout => execLdVxMem_of_out hout, fun x hout => storeAtI_of_out hout, fun x hout => storeAtI_of_out ?_,
    fun nnn hfull => execCall_of_full (slotOf_succ_eq_none_of_full hfull),
    fun hempty => execRet_of_empty (slotOf_eq_none_of_empty hempty)⟩
  · rw [step_cpu hrunning hcpu]
    exact cpuStep_of_error (fetchDecode_error.mpr (.inl ⟨hout, rfl⟩))
  · rw [length_regsUpTo]
    exact hout

/-- Settles O28 (R203): the operand is checked before any access. -/
theorem operandDomainFaults : Obligations.OperandDomainFaults := by
  intro s x y
  rw [← infoOf_eq]
  refine ⟨fun hlarge => ⟨execLdF_of_large hlarge, skipOnKey_of_large _ hlarge, skipOnKey_of_large _ hlarge⟩, ?_⟩
  exact congrArg (fun w => (.fault (.unmodelled .spriteHeightZero s.pc w) : Result)) (wordXYN_eq 0xD x y 0).symm

/-! ## Register writes (spec/41_alu.md R122) -/

/-- Writing one register and advancing changes that register alone. -/
theorem onlyReg_setReg (s : State) (x : Reg) (b : Byte) : onlyReg x s ((s.setReg x b).setPc (s.pc + 2)) :=
  ⟨rfl, fun _ hk => State.reg_setReg_ne s hk b⟩

/-- Writing one register and then the flag changes these two alone. -/
theorem onlyRegAndFlag_setFlag (s : State) (x : Reg) (b : Byte) (f : Bool) :
    onlyRegAndFlag x s (((s.setReg x b).setFlag f).setPc (s.pc + 2)) :=
  ⟨rfl, fun _ hx hf => (reg_setFlag_ne hf (s.setReg x b) f).trans (State.reg_setReg_ne s hx b)⟩

/-- Writing the flag and then one register changes these two alone. -/
theorem onlyRegAndFlag_setReg (s : State) (x : Reg) (b : Byte) (f : Bool) :
    onlyRegAndFlag x s (((s.setFlag f).setReg x b).setPc (s.pc + 2)) :=
  ⟨rfl, fun _ hx hf => (State.reg_setReg_ne (s.setFlag f) hx b).trans (reg_setFlag_ne hf s f)⟩

/-- The destination keeps its result under the flag write when it is not `VF`. -/
theorem reg_setReg_setFlag {x : Reg} (hx : x ≠ flagReg) (s : State) (b : Byte) (f : Bool) :
    ((s.setReg x b).setFlag f).reg x = b :=
  (reg_setFlag_ne hx _ f).trans (State.reg_setReg_self ..)

/-- Settles O29 (R125, R127): a pass writes its second operand to the destination. -/
theorem registerLoads : Obligations.RegisterLoads := fun x _ kk s =>
  ⟨decodeWord_wordXK kk rfl, decodeWord_wordXYN 0x0 rfl,
    ⟨_, rfl, State.reg_setReg_self s x kk, onlyReg_setReg s x kk⟩,
    ⟨_, rfl, State.reg_setReg_self s x _, onlyReg_setReg s x _⟩⟩

/-- Settles O30 (R126, D10): the sum has no flag. -/
theorem addImmediateWritesNoFlag : Obligations.AddImmediateWritesNoFlag := fun x kk s =>
  ⟨_, rfl, (congrArg BitVec.toNat (State.reg_setReg_self s x _)).trans (BitVec.toNat_add (s.reg x) kk),
    onlyReg_setReg s x _⟩

/-- Settles O31 (R133 to R135, D11): the bitwise operations have no flag. -/
theorem logicIsBitwise : Obligations.LogicIsBitwise := fun x _ s =>
  ⟨⟨_, rfl, onlyReg_setReg s x _, fun k =>
      (congrArg (·.getLsbD k) (State.reg_setReg_self s x _)).trans BitVec.getLsbD_or⟩,
    ⟨_, rfl, onlyReg_setReg s x _, fun k =>
      (congrArg (·.getLsbD k) (State.reg_setReg_self s x _)).trans BitVec.getLsbD_and⟩,
    ⟨_, rfl, onlyReg_setReg s x _, fun k =>
      (congrArg (·.getLsbD k) (State.reg_setReg_self s x _)).trans BitVec.getLsbD_xor⟩⟩

/-- An ALU instruction with a flag: its result in the destination, unless that is `VF`, and its flag in `VF`. -/
theorem aluInto_flag {op : AluOp} {a b r : Byte} {p : Prop} [Decidable p] (h : alu op a b = (r, some (decide p)))
    (x : Reg) (s : State) :
    ∃ t, aluInto op x a b s = .next t ∧ onlyRegAndFlag x s t ∧ (x ≠ flagReg → t.reg x = r) ∧
      t.reg flagReg = if p then 1 else 0 := by
  refine ⟨((s.setReg x r).setFlag (decide p)).setPc (s.pc + 2), ?_, onlyRegAndFlag_setFlag s x r _,
    fun hx => reg_setReg_setFlag hx s r _, ?_⟩
  · simp only [aluInto, h, State.writeBack]
    rfl
  · exact (reg_setFlag_self (s.setReg x r) _).trans (flagByte_decide p)

theorem toNat_sub_byte (a b : Byte) : (a - b).toNat = (a.toNat + 256 - b.toNat) % 256 := by
  rw [BitVec.toNat_sub]
  have := b.isLt
  omega

theorem toNat_ite_flag (p : Prop) [Decidable p] : (if p then (1 : Byte) else 0).toNat = if p then 1 else 0 := by
  split <;> rfl

/-- Settles O32 (R128, D12): the sum, then its carry. -/
theorem addWritesSumThenCarry : Obligations.AddWritesSumThenCarry := by
  intro x y s
  obtain ⟨t, hexec, hframe, hres, hflag⟩ := aluInto_flag (op := .add) (a := s.reg x) (b := s.reg y) rfl x s
  refine ⟨t, hexec, hframe, fun hx => ?_, ?_⟩
  · rw [hres hx]
    exact BitVec.toNat_add ..
  · rw [hflag, toNat_ite_flag]

/-- Settles O33 (R129, R131, C2, D12): the difference, then whether the minuend is above. -/
theorem subtractWritesDifferenceThenFlag : Obligations.SubtractWritesDifferenceThenFlag := by
  intro x y s
  obtain ⟨t, hsub, hframe, hres, hflag⟩ := aluInto_flag (op := .sub) (a := s.reg x) (b := s.reg y) rfl x s
  obtain ⟨u, hsubn, hframe', hres', hflag'⟩ := aluInto_flag (op := .subn) (a := s.reg x) (b := s.reg y) rfl x s
  refine ⟨⟨t, hsub, hframe, fun hx => ?_, ?_⟩, ⟨u, hsubn, hframe', fun hx => ?_, ?_⟩⟩
  · rw [hres hx, toNat_sub_byte]
  · rw [hflag, toNat_ite_flag]
  · rw [hres' hx, toNat_sub_byte]
  · rw [hflag', toNat_ite_flag]

/-! ## Shifts (spec/41_alu.md R130, R132, decision D13) -/

/-- The state a shift leaves: the bit shifted out in `VF`, and then the destination, as it stands after that write,
shifted. -/
def shifted (op : AluOp) (x : Reg) (f : Bool) (s : State) : State :=
  ((s.setFlag f).setReg x (alu op ((s.setFlag f).reg x) 0).1).setPc (s.pc + 2)

theorem execShr_eq (x y : Reg) (s : State) : execShr x y s = .next (shifted .shr x ((s.reg x).getLsbD 0) s) := rfl

theorem execShl_eq (x y : Reg) (s : State) : execShl x y s = .next (shifted .shl x ((s.reg x).getLsbD 7) s) := rfl

theorem shifted_frame (op : AluOp) (x : Reg) (f : Bool) (s : State) : onlyRegAndFlag x s (shifted op x f s) :=
  onlyRegAndFlag_setReg s x _ f

theorem reg_shifted {op : AluOp} {x : Reg} (f : Bool) (s : State) (hx : x ≠ flagReg) :
    (shifted op x f s).reg x = (alu op (s.reg x) 0).1 :=
  (State.reg_setReg_self (s.setFlag f) x _).trans (by rw [reg_setFlag_ne hx])

theorem flag_shifted {op : AluOp} {x : Reg} (f : Bool) (s : State) (hx : x ≠ flagReg) :
    (shifted op x f s).reg flagReg = flagByte f :=
  (State.reg_setReg_ne (s.setFlag f) hx.symm _).trans (reg_setFlag_self s f)

/-- A shift of `VF` shifts the flag just written. -/
theorem flag_shifted_flagReg (op : AluOp) (f : Bool) (s : State) :
    (shifted op flagReg f s).reg flagReg = (alu op (flagByte f) 0).1 :=
  (State.reg_setReg_self (s.setFlag f) flagReg _).trans (by rw [reg_setFlag_self])

theorem lowBit_toNat (b : Byte) : (flagByte (b.getLsbD 0)).toNat = b.toNat % 2 := by
  revert b
  decide

theorem highBit_eq (b : Byte) : b.getLsbD 7 = decide (128 ≤ b.toNat) := by
  revert b
  decide

theorem highBit_toNat (b : Byte) : (flagByte (b.getLsbD 7)).toNat = b.toNat / 128 := by
  revert b
  decide

/-- Settles O34 (R130, D13): `y` is no operand of the answer; with `x` = `VF` it is the flag that is halved. -/
theorem shiftRightWritesFlagFirst : Obligations.ShiftRightWritesFlagFirst := by
  intro x y s
  refine ⟨_, execShr_eq x y s, shifted_frame .., fun hx => ?_, ?_, fun z => rfl⟩
  · rw [reg_shifted _ s hx, flag_shifted _ s hx, lowBit_toNat]
    exact ⟨Nat.shiftRight_eq_div_pow _ 1, rfl⟩
  · rintro rfl
    rw [flag_shifted_flagReg]
    cases (s.reg flagReg).getLsbD 0 <;> rfl

/-- Settles O35 (R132, D13): `y` is no operand of the answer; with `x` = `VF` it is the flag that is doubled. -/
theorem shiftLeftWritesFlagFirst : Obligations.ShiftLeftWritesFlagFirst := by
  intro x y s
  refine ⟨_, execShl_eq x y s, shifted_frame .., fun hx => ?_, ?_, fun z => rfl⟩
  · rw [reg_shifted _ s hx, flag_shifted _ s hx, highBit_toNat]
    refine ⟨?_, rfl⟩
    show (s.reg x <<< 1).toNat = _
    rw [BitVec.toNat_shiftLeft, Nat.shiftLeft_eq]
  · rintro rfl
    rw [flag_shifted_flagReg, highBit_eq]
    by_cases h : 128 ≤ (s.reg flagReg).toNat <;> simp [h, flagByte, alu]

end Sys2Proof.Machine
end

section
namespace Sys2Proof.Machine

/-! ## Random bytes (spec/41_alu.md R136, spec/60_exceptions.md R223) -/

theorem randomByte_of_cons {s : State} {b : Byte} {q : List Byte} (h : s.byteQueue = b :: q) : s.randomByte = b := by
  simp [State.randomByte, h]

theorem randomByte_of_nil {s : State} (h : s.byteQueue = []) : s.randomByte = Config.freeByte s.draws := by
  simp [State.randomByte, h]

/-- Settles O37 (R136, D20): the destination takes the step's byte under the mask; the two queue cases are those of the
input. -/
theorem randomIsMasked : Obligations.RandomIsMasked := by
  intro x kk s
  have hres : ((s.tookByte.setReg x (s.randomByte &&& kk)).setPc (s.pc + 2)).reg x = s.randomByte &&& kk :=
    State.reg_setReg_self s.tookByte x _
  refine ⟨(s.tookByte.setReg x (s.randomByte &&& kk)).setPc (s.pc + 2), rfl, fun b q hq => ?_, fun hq => ?_, ?_,
    fun k hk => State.reg_setReg_ne s.tookByte hk _, rfl⟩
  · rw [hres, randomByte_of_cons hq]
    simp [hq]
  · rw [hres, randomByte_of_nil hq]
    simp [hq]
  · rintro rfl
    rw [hres]
    exact BitVec.and_zero

/-! ## Index register (spec/42_index_memory.md R150 to R152) -/

theorem glyphAddr_toNat (d : Fin 16) : (glyphAddr d).toNat = 5 * d.val := by
  have := d.isLt
  simp only [glyphAddr, Params.fontBase, Params.glyphBytes, BitVec.toNat_ofNat]
  omega

theorem indexSum_toNat (i : Word) (b : Byte) : (indexSum i b).toNat = (i.toNat + b.toNat) % 65536 := by
  simp [indexSum, BitVec.toNat_add]

/-- Settles O38 (R150): the operand, zero-extended. -/
theorem loadIndex : Obligations.LoadIndex := fun nnn _ =>
  ⟨decodeWord_wordA rfl, _, rfl, addrOf_toNat nnn, rfl⟩

/-- Settles O39 (R151, D14): the sum of `I` and the register, in the width of `I`. -/
theorem addToIndexWraps : Obligations.AddToIndexWraps := fun x s => ⟨_, rfl, indexSum_toNat s.i (s.reg x), rfl⟩

/-- Settles O40 (R152, D3, D15): a register of at most 15 holds a digit, and the font stands at 0. -/
theorem fontPointer : Obligations.FontPointer := fun x s hdigit =>
  ⟨_, execLdF_of_digit (d := ⟨(s.reg x).toNat, Nat.lt_succ_of_le hdigit⟩) rfl, glyphAddr_toNat _, rfl⟩

/-! ## Memory transfer (spec/42_index_memory.md R153 to R155) -/

theorem storeAtI_of_fits {bs : List Byte} {s : State} (hpos : 0 < bs.length)
    (h : s.i.toNat + bs.length ≤ Params.memSize) :
    storeAtI bs s = .next ((s.setMem (memPutRun s.mem s.i.toNat bs)).setPc (s.pc + 2)) :=
  (storeAtI_eq bs s).trans (if_neg (by omega))

/-- Settles O41 (R153, D17): the three digits are the stored run. -/
theorem bcdStoresThreeDigits : Obligations.BcdStoresThreeDigits := by
  intro x s hwf hfit
  have hrun : s.i.toNat + (bcdDigits (s.reg x)).length ≤ Params.memSize := hfit
  have hread : ∀ k (hk : k < 3), memGet (memPutRun s.mem s.i.toNat (bcdDigits (s.reg x))) (s.i.toNat + k) =
      (bcdDigits (s.reg x))[k] := fun k hk => memGet_memPutRun_inside hwf hrun hk
  refine ⟨_, storeAtI_of_fits (Nat.succ_pos 2) hrun, ?_, ?_, ?_, fun a ha => ?_, rfl⟩
  · exact (congrArg BitVec.toNat (hread 0 (by decide))).trans BitVec.toNat_udiv
  · refine (congrArg BitVec.toNat (hread 1 (by decide))).trans (BitVec.toNat_umod.trans ?_)
    rw [BitVec.toNat_udiv]
    rfl
  · exact (congrArg BitVec.toNat (hread 2 (by decide))).trans BitVec.toNat_umod
  · exact memGet_memPutRun_outside s.mem _ (ha.imp_right id)

theorem execLdMemVx_of_fits {x : Reg} {s : State} (h : s.i.toNat + x.val < Params.memSize) :
    execLdMemVx x s = .next ((s.setMem (memPutRun s.mem s.i.toNat (s.regsUpTo x))).setPc (s.pc + 2)) :=
  storeAtI_of_fits (by simp) (by rw [length_regsUpTo]; exact h)

/-- `LD [I],Vx` goes on when, and only when, its bytes lie inside memory. -/
theorem execLdMemVx_next {x : Reg} {s t : State} (h : execLdMemVx x s = .next t) :
    s.i.toNat + x.val < Params.memSize ∧
      t = (s.setMem (memPutRun s.mem s.i.toNat (s.regsUpTo x))).setPc (s.pc + 2) := by
  obtain ⟨hfit, rfl⟩ := storeAtI_next h
  rw [length_regsUpTo] at hfit
  exact ⟨hfit, rfl⟩

/-- A register stored at `I` is read back at its place in the run. -/
theorem memGet_storedReg {s : State} {x k : Reg} (hwf : Memory.wf s.mem) (hfit : s.i.toNat + x.val < Params.memSize)
    (hk : k ≤ x) : memGet (memPutRun s.mem s.i.toNat (s.regsUpTo x)) (s.i.toNat + k.val) = s.reg k := by
  have hlt : k.val < (s.regsUpTo x).length := by
    rw [length_regsUpTo]
    exact Nat.lt_succ_of_le hk
  rw [memGet_memPutRun_inside hwf (by rw [length_regsUpTo]; exact hfit) hlt]
  exact List.getElem_eq_iff hlt |>.mpr (getElem?_regsUpTo s x k hk)

/-- Settles O42 (R154, D16): the registers are the stored run, read inside and outside it. -/
theorem storeRegisters : Obligations.StoreRegisters := by
  intro x s hwf hfit
  refine ⟨_, execLdMemVx_of_fits hfit, fun k hk => memGet_storedReg hwf hfit hk, fun a ha => ?_, rfl⟩
  refine memGet_memPutRun_outside s.mem _ (ha.imp_right fun h => ?_)
  rw [length_regsUpTo]
  exact h

/-- Settles O43 (R155, D16): the loaded run has a byte for each register up to `x` and none above. -/
theorem loadRegisters : Obligations.LoadRegisters := fun x s hfit =>
  ⟨_, execLdVxMem_of_fits hfit, fun k => reg_loadRegs_memGetRun s s.mem s.i.toNat x k, rfl⟩

/-- Settles O44: the load reads at each place of the run the register that was stored there. -/
theorem storeThenLoadRoundTrip : Obligations.StoreThenLoadRoundTrip := by
  intro x s t u hwf hstore hmem hi
  obtain ⟨hfit, rfl⟩ := execLdMemVx_next hstore
  have hi' : u.i = s.i := hi
  refine ⟨_, execLdVxMem_of_fits (s := u) (by rw [hi']; exact hfit), fun k hk => ?_⟩
  refine (reg_loadRegs_memGetRun u u.mem u.i.toNat x k).trans ?_
  rw [if_pos hk, hi', hmem]
  exact memGet_storedReg hwf hfit hk

/-- Settles O45 (R62, R51): the fetch reads the two places of the run. -/
theorem storedBytesAreFetched : Obligations.StoredBytesAreFetched := by
  intro x j k s t u hwf hstore hkj hkx hmem hpc
  obtain ⟨hfit, rfl⟩ := execLdMemVx_next hstore
  have hk : k.val ≤ x.val := hkx
  refine fetch_ok.mpr ⟨by omega, ?_⟩
  rw [hpc, Nat.add_assoc, ← hkj, hmem, State.setPc_mem, State.setMem_mem, memGet_storedReg hwf hfit hkx,
    memGet_storedReg hwf hfit (Fin.le_def.mpr (by omega))]

end Sys2Proof.Machine
end

section
namespace Sys2Proof.Machine

/-! ## Framebuffer (spec/43_display.md R170, R171) -/

/-- Settles O46 (R170): the cleared framebuffer is stored and shown. -/
theorem clearScreen : Obligations.ClearScreen := fun _ => ⟨rfl, _, rfl, pixel_clear, rfl⟩

/-- The pixels that `DRW Vx,Vy,n` covers at `s`. -/
def coveredPixels (s : State) (x y : Reg) (n : Nibble) : List (Fin 64 × Fin 32) :=
  spritePixels (s.reg x).toNat (s.reg y).toNat (memGetRun s.mem s.i.toNat n.toNat)

theorem nodup_coveredPixels (s : State) (x y : Reg) (n : Nibble) : (coveredPixels s x y n).Nodup := by
  refine nodup_spritePixels _ _ _ ?_
  rw [length_memGetRun]
  exact n.isLt.le.trans (by decide)

theorem mem_coveredPixels {s : State} {x y : Reg} {n : Nibble} {px : Fin 64} {py : Fin 32} :
    (px, py) ∈ coveredPixels s x y n ↔
      spriteCovers (s.reg x) (s.reg y) (fun r => memGet s.mem (s.i.toNat + r)) n.toNat px py :=
  drawn_iff _ _ s.mem s.i.toNat n.toNat px py

/-- The state `DRW` leaves when it goes on. -/
def drawn (s : State) (x y : Reg) (n : Nibble) : State :=
  (s.draw (s.reg x) (s.reg y) (memGetRun s.mem s.i.toNat n.toNat)).setPc (s.pc + 2)

/-- A draw toggles the covered pixels and no others. -/
theorem pixel_drawn (s : State) (x y : Reg) (n : Nibble) (px : Fin 64) (py : Fin 32) :
    pixel (drawn s x y n).fb px py = (pixel s.fb px py ^^ decide ((px, py) ∈ coveredPixels s x y n)) :=
  pixel_drawPixels (nodup_coveredPixels s x y n) s.fb px py

theorem flag_drawn (s : State) (x y : Reg) (n : Nibble) :
    (drawn s x y n).reg flagReg = flagByte ((coveredPixels s x y n).any fun p => pixel s.fb p.1 p.2) :=
  (reg_setFlag_self (s.setFb _) _).trans
    (congrArg flagByte (collision_drawPixels (nodup_coveredPixels s x y n) s.fb))

/-- The flag of a draw: some covered pixel was set. -/
theorem flag_drawn_eq_one {s : State} {x y : Reg} {n : Nibble} :
    (drawn s x y n).reg flagReg = 1 ↔ ∃ px py, pixel s.fb px py = true ∧ (px, py) ∈ coveredPixels s x y n := by
  rw [flag_drawn, flagByte_eq_one, List.any_eq_true, Prod.exists]
  simp only [and_comm]

theorem flag_drawn_zero_or_one (s : State) (x y : Reg) (n : Nibble) :
    (drawn s x y n).reg flagReg = 0 ∨ (drawn s x y n).reg flagReg = 1 := by
  rw [flag_drawn]
  exact flagByte_zero_or_one _

theorem reg_drawn_ne {k : Reg} (hk : k ≠ flagReg) (s : State) (x y : Reg) (n : Nibble) :
    (drawn s x y n).reg k = s.reg k :=
  reg_setFlag_ne hk (s.setFb _) _

/-- A draw leaves its own operands alone when none of them is `VF`, so a second draw covers the same pixels. -/
theorem coveredPixels_drawn {s : State} {x y : Reg} (n : Nibble) (hx : x ≠ flagReg) (hy : y ≠ flagReg) :
    coveredPixels (drawn s x y n) x y n = coveredPixels s x y n := by
  unfold coveredPixels
  rw [reg_drawn_ne hx, reg_drawn_ne hy]
  rfl

/-- Settles O47 (R171): the pixel, flag and frame lemmas of a draw, with covering as the spec's loops state it. -/
theorem drawTogglesCoveredPixels : Obligations.DrawTogglesCoveredPixels := by
  intro x y n s hn hfit
  refine ⟨drawn s x y n, execDrw_of_fits hn hfit, fun px py => ?_, flag_drawn_zero_or_one s x y n, ?_,
    fun k hk => reg_drawn_ne hk s x y n, rfl⟩
  · rw [pixel_drawn, ← mem_coveredPixels]
    by_cases hcov : (px, py) ∈ coveredPixels s x y n <;> simp [hcov]
  · rw [flag_drawn_eq_one]
    simp only [mem_coveredPixels]

/-- Settles O48 (R171): toggling the same pixels twice restores them, and the second draw meets those the first set. -/
theorem drawTwiceRestores : Obligations.DrawTwiceRestores := by
  intro x y n s t hx hy hdraw
  obtain ⟨hn, hfit, ht⟩ := execDrw_next hdraw
  obtain rfl : t = drawn s x y n := ht
  have hsame := coveredPixels_drawn (s := s) n hx hy
  refine ⟨drawn (drawn s x y n) x y n, execDrw_of_fits hn hfit, framebuffer_ext fun px py => ?_, ?_⟩
  · rw [pixel_drawn, pixel_drawn, hsame, Bool.xor_assoc, Bool.xor_self, Bool.xor_false]
  · rintro hflag ⟨px, py, hcov⟩
    rw [← mem_coveredPixels] at hcov
    have hclear : pixel s.fb px py = false := by
      by_contra hset
      have hone := flag_drawn_eq_one.mpr ⟨px, py, Bool.not_eq_false _ ▸ hset, hcov⟩
      exact absurd (hflag.symm.trans hone) (by decide)
    refine flag_drawn_eq_one.mpr ⟨px, py, ?_, hsame ▸ hcov⟩
    rw [pixel_drawn, hclear, decide_eq_true hcov]
    rfl

/-! ## The flag table (spec/41_alu.md R123, R124) -/

theorem flag_of_aluInto {op : AluOp} {a b r : Byte} {p : Prop} [Decidable p] (halu : alu op a b = (r, some (decide p)))
    {x : Reg} {s t : State} (h : aluInto op x a b s = .next t) : t.reg flagReg = if p then 1 else 0 := by
  obtain ⟨u, hu, -, -, hflag⟩ := aluInto_flag halu x s
  cases hu.symm.trans h
  exact hflag

/-- A draw's flag says whether some pixel went from set to unset. -/
theorem flag_drawn_iff_unset {s : State} {x y : Reg} {n : Nibble} :
    (drawn s x y n).reg flagReg = 1 ↔
      ∃ px py, pixel s.fb px py = true ∧ pixel (drawn s x y n).fb px py = false := by
  rw [flag_drawn_eq_one]
  refine exists_congr fun px => exists_congr fun py => and_congr_right fun hset => ?_
  simp [pixel_drawn, hset]

/-- Settles O36 (R123, R124): the flag of each of the six writers, and the frame of the register file for the others. -/
theorem flagWritersAndValues : Obligations.FlagWritersAndValues := by
  intro i s t h
  refine ⟨?_, ?_, ?_, ?_, ?_, ?_, fun _ hkeep => generalRegisterFrame i s t flagReg h hkeep⟩
  · rintro x y rfl
    exact flag_of_aluInto rfl h
  · rintro x y rfl
    exact flag_of_aluInto rfl h
  · rintro x y rfl
    exact flag_of_aluInto rfl h
  · rintro x y rfl hx
    cases h
    exact flag_shifted (op := .shr) _ s hx
  · rintro x y rfl hx
    cases h
    exact flag_shifted (op := .shl) _ s hx
  · rintro x y n rfl
    obtain ⟨-, -, rfl⟩ := execDrw_next h
    exact ⟨flag_drawn_zero_or_one s x y n, flag_drawn_iff_unset⟩

/-! ## Keypad (spec/44_keypad_timer_access.md R180 to R182, spec/60_exceptions.md R222) -/

theorem keys_of_cons {s : State} {snap : Config.KeySnapshot} {q : List Config.KeySnapshot}
    (h : s.keyQueue = snap :: q) : s.keys = snap := by
  simp [State.keys, h]

theorem keys_of_nil {s : State} (h : s.keyQueue = []) : s.keys = Config.freeKeys s.draws := by
  simp [State.keys, h]

/-- Settles O49 (R180, R181): both are the skip on the key, with the snapshot taken. -/
theorem keySkips : Obligations.KeySkips := by
  intro x k s hk
  refine ⟨⟨_, (skipOnKey_of_key true hk).trans (skipIf_eq ..), ?_, rfl⟩,
    ⟨_, (skipOnKey_of_key false hk).trans (skipIf_eq ..), ?_, rfl⟩⟩
  all_goals cases s.keys[k] <;> simp

theorem lowestKey_eq_none {snap : Config.KeySnapshot} (h : ∀ j : Fin 16, snap[j] = false) : lowestKey snap = none := by
  simp only [lowestKey, List.find?_eq_none]
  exact fun j _ => by simpa using h j

theorem lowestKey_eq_some {snap : Config.KeySnapshot} {k : Fin 16} (hk : snap[k] = true)
    (hlow : ∀ j : Fin 16, j < k → snap[j] = false) : lowestKey snap = some k := by
  simp only [lowestKey, List.find?_eq_some_iff_getElem]
  refine ⟨hk, k.val, by simp, by simp, fun j hj => ?_⟩
  simpa using hlow ⟨j, hj.trans k.isLt⟩ hj

theorem keyByte_toNat (k : Fin 16) : (keyByte k).toNat = k.val := by
  have := k.isLt
  simp only [keyByte, BitVec.toNat_ofNat]
  omega

/-- Settles O50 (R182): the two outcomes of the key wait. -/
theorem waitForKey : Obligations.WaitForKey := by
  intro x s
  refine ⟨decodeWord_wordXK 0x0A rfl, fun hnone => ⟨s.tookKeys, ?_, rfl⟩, fun k hk hlow =>
    ⟨(s.tookKeys.setReg x (keyByte k)).setPc (s.pc + 2), ?_, ?_, fun j hj => State.reg_setReg_ne s.tookKeys hj _, rfl⟩⟩
  · rw [exec, execLdVxK_eq, lowestKey_eq_none hnone, retry_eq]
  · rw [exec, execLdVxK_eq, lowestKey_eq_some hk hlow]
    rfl
  · exact (congrArg BitVec.toNat (State.reg_setReg_self s.tookKeys x _)).trans (keyByte_toNat k)

/-- A keypad instruction that goes on has taken one snapshot. -/
theorem exec_takes_keys {i : Instr} {s t : State} (hi : queriesKeys i) (h : exec i s = .next t) :
    t.keyQueue = s.tookKeys.keyQueue ∧ t.draws = s.tookKeys.draws := by
  obtain ⟨x, rfl⟩ | ⟨x, rfl⟩ | ⟨x, rfl⟩ := hi
  · obtain ⟨c, rfl⟩ := skipOnKey_next h
    exact ⟨rfl, rfl⟩
  · obtain ⟨c, rfl⟩ := skipOnKey_next h
    exact ⟨rfl, rfl⟩
  · rw [exec, execLdVxK_eq] at h
    split at h <;> cases h <;> exact ⟨rfl, rfl⟩

/-- Settles O51 (R222): the two queue cases of the snapshot taken. -/
theorem keySnapshotIsFree : Obligations.KeySnapshotIsFree := by
  intro s t i hi h
  obtain ⟨hqueue, hdraws⟩ := exec_takes_keys hi h
  rw [hqueue, hdraws]
  refine ⟨fun snap q hq => ⟨keys_of_cons hq, ?_⟩, fun hq => ⟨keys_of_nil hq, ?_⟩⟩ <;> simp [hq]

/-! ## Timer registers (spec/44_keypad_timer_access.md R183 to R185) -/

/-- Settles O52 (R183): one register takes `DT`. -/
theorem readDelayTimer : Obligations.ReadDelayTimer := fun x s =>
  ⟨decodeWord_wordXK 0x07 rfl, _, rfl, State.reg_setReg_self s x s.dt, onlyReg_setReg s x s.dt⟩

/-- Settles O53 (R184, D22): `DT` is the one field written besides `PC`. -/
theorem setDelayTimer : Obligations.SetDelayTimer := fun _ _ => ⟨_, rfl, rfl, rfl⟩

/-- Settles O54 (R185, C4): the event is that of the loaded value, whatever `ST` held. -/
theorem setSoundTimer : Obligations.SetSoundTimer := fun _ _ => ⟨_, rfl, rfl, rfl, rfl⟩

end Sys2Proof.Machine
end
